-- ==== Sys2Proof/Word.lean ====
section
/-! DEFINITION. The two widths of the core: bytes and 32-bit words, both unsigned (spec/00_scope.md R6, R7). -/

namespace Sys2Proof

/-- A byte value: the contents of a byte register or of one memory cell (R7). Bit 0 is the least significant (R6). -/
abbrev Byte := BitVec 8

/-- A word value: the contents of a word register (R7). -/
abbrev Word := BitVec 32

end Sys2Proof
end

