-- ==== Sys2Proof/Machine/Flags.lean ====
section
/-! DEFINITION. The one flag of the core: the byte register `f` as CMP writes it and the branches test it
(spec/10_state.md R12). -/

namespace Sys2Proof.Machine

/-- What CMP writes to `f`: 0 when equal, 1 otherwise (spec/41_alu.md R83). -/
def compareFlag (x y : Byte) : Byte := if x = y then 0 else 1

/-- What JEZ tests; JNZ tests the contrary (spec/43_pointer_branch.md R89, R90). -/
def flagIsZero (f : Byte) : Bool := f == 0

end Sys2Proof.Machine
end

