-- ==== Sys2Proof/Syntax.lean ====
section
/-! DEFINITION. Registers, selectors, the thirteen forms and the instructions of the core ISA
(spec/10_state.md R11 to R16, spec/30_encoding.md R51 to R54). -/

namespace Sys2Proof

/-- The six byte registers (R11). -/
inductive ByteReg where
  | a | b | c | d | e | f
deriving DecidableEq, Repr

/-- The six word registers (R13). -/
inductive WordReg where
  | la | lb | lc | ld | ptr | pc
deriving DecidableEq, Repr

/-- What a byte-space selector names (R14): 0 names nothing, 1 to 6 a byte register, 7 the memory cell at `ptr + c`. -/
inductive ByteSel where
  | undef
  | reg (r : ByteReg)
  | ind
deriving DecidableEq, Repr

/-- What a word-space selector names (R15): 0 and 7 name nothing, 1 to 6 a word register. -/
inductive WordSel where
  | undef0
  | reg (r : WordReg)
  | undef7
deriving DecidableEq, Repr

/-- The thirteen instruction forms, in the order of the opcode table (spec/30_encoding.md R54). -/
inductive Form where
  | add | aptr | cmp | halt | jez | jnz | mvi | mvi32 | mv | mv32 | out | sub | xor
deriving DecidableEq, Repr

/-- An instruction with its operands; the destination comes first, as in the spec's listings (R61). -/
inductive Instr where
  | add
  | aptr (imm8 : Byte)
  | cmp
  | halt
  | jez (imm32 : Word)
  | jnz (imm32 : Word)
  | mvi (dst : ByteSel) (imm8 : Byte)
  | mvi32 (dst : WordSel) (imm32 : Word)
  | mv (dst src : ByteSel)
  | mv32 (dst src : WordSel)
  | out
  | sub
  | xor
deriving DecidableEq, Repr

end Sys2Proof
end

