-- ==== Sys2Proof/WellFormed.lean ====
section
/-! DEFINITION. Which terms of `Instr` some bytes decode to (spec/30_encoding.md R56). -/

namespace Sys2Proof

/-- A term of `Instr` is an instruction of the core unless it is an MV or MV32 with source selector 0: such a byte is
MVI or MVI32 (spec/30_encoding.md R56, spec/44_moves.md R96). -/
def Instr.wellFormed : Instr → Bool
  | .mv _ src => src != .undef
  | .mv32 _ src => src != .undef0
  | .add => true
  | .aptr _ => true
  | .cmp => true
  | .halt => true
  | .jez _ => true
  | .jnz _ => true
  | .mvi _ _ => true
  | .mvi32 _ _ => true
  | .out => true
  | .sub => true
  | .xor => true

end Sys2Proof
end

