-- ==== Sys2Proof/Decode.lean ====
section
/-! DEFINITION. The opcode table, decoding of any bytes, and the encoder (spec/30_encoding.md). -/

namespace Sys2Proof

/-- A byte-space selector's 3-bit number (spec/10_state.md R14; the numbers 1 to 6 are the spec's decision D3, log 12). -/
def ByteSel.bits : ByteSel → BitVec 3
  | .undef => 0
  | .reg .a => 1
  | .reg .b => 2
  | .reg .c => 3
  | .reg .d => 4
  | .reg .e => 5
  | .reg .f => 6
  | .ind => 7

/-- What a 3-bit number selects in the byte space (R14). -/
def ByteSel.ofBits (s : BitVec 3) : ByteSel :=
  match s.toNat with
  | 0 => .undef
  | 1 => .reg .a
  | 2 => .reg .b
  | 3 => .reg .c
  | 4 => .reg .d
  | 5 => .reg .e
  | 6 => .reg .f
  | _ => .ind

/-- A word-space selector's 3-bit number (spec/10_state.md R15; decision D3, log 12). -/
def WordSel.bits : WordSel → BitVec 3
  | .undef0 => 0
  | .reg .la => 1
  | .reg .lb => 2
  | .reg .lc => 3
  | .reg .ld => 4
  | .reg .ptr => 5
  | .reg .pc => 6
  | .undef7 => 7

/-- What a 3-bit number selects in the word space (R15). -/
def WordSel.ofBits (s : BitVec 3) : WordSel :=
  match s.toNat with
  | 0 => .undef0
  | 1 => .reg .la
  | 2 => .reg .lb
  | 3 => .reg .lc
  | 4 => .reg .ld
  | 5 => .reg .ptr
  | 6 => .reg .pc
  | _ => .undef7

/-- Length of a form in bytes (spec/30_encoding.md R54, R60). -/
def Form.length : Form → Nat
  | .add => 1
  | .aptr => 2
  | .cmp => 1
  | .halt => 1
  | .jez => 5
  | .jnz => 5
  | .mvi => 2
  | .mvi32 => 5
  | .mv => 1
  | .mv32 => 1
  | .out => 1
  | .sub => 1
  | .xor => 1

/-- The form an instruction is of. -/
def Instr.form : Instr → Form
  | .add => .add
  | .aptr _ => .aptr
  | .cmp => .cmp
  | .halt => .halt
  | .jez _ => .jez
  | .jnz _ => .jnz
  | .mvi _ _ => .mvi
  | .mvi32 _ _ => .mvi32
  | .mv _ _ => .mv
  | .mv32 _ _ => .mv32
  | .out => .out
  | .sub => .sub
  | .xor => .xor

/-- Length of an instruction in bytes. -/
def Instr.length (i : Instr) : Nat := i.form.length

/-- One row of the opcode table: `op` selects the form when `op &&& mask = value`. -/
structure OpcodeRow where
  form : Form
  mask : Byte
  value : Byte
deriving DecidableEq, Repr

/-- The opcode table in its priority order (spec/30_encoding.md R54, as printed: decision D23, log 16). -/
def opcodeTable : List OpcodeRow :=
  [ ⟨.add,   0xFF, 0xC2⟩,
    ⟨.aptr,  0xFF, 0xE1⟩,
    ⟨.cmp,   0xFF, 0xC1⟩,
    ⟨.halt,  0xFF, 0x01⟩,
    ⟨.jez,   0xFF, 0x21⟩,
    ⟨.jnz,   0xFF, 0x22⟩,
    ⟨.mvi,   0xC7, 0x40⟩,
    ⟨.mvi32, 0xC7, 0x80⟩,
    ⟨.mv,    0xC0, 0x40⟩,
    ⟨.mv32,  0xC0, 0x80⟩,
    ⟨.out,   0xFF, 0x02⟩,
    ⟨.sub,   0xFF, 0xC3⟩,
    ⟨.xor,   0xFF, 0xC4⟩ ]

/-- The form of the first row that the byte matches (R55). -/
def resolve (op : Byte) : Option Form :=
  (opcodeTable.find? fun row => op &&& row.mask == row.value).map OpcodeRow.form

/-- Field `dst = op[5:3]` (R52). -/
def dstField (op : Byte) : BitVec 3 := op.extractLsb' 3 3

/-- Field `src = op[2:0]` (R52). -/
def srcField (op : Byte) : BitVec 3 := op.extractLsb' 0 3

/-- A word from its four bytes, the least significant first (spec/20_memory.md R32, R35). -/
def wordOfBytes (b0 b1 b2 b3 : Byte) : Word := b3 ++ b2 ++ b1 ++ b0

/-- Byte `k` of a word, byte 0 the least significant. -/
def byteOfWord (w : Word) (k : Nat) : Byte := w.extractLsb' (8 * k) 8

/-- Why bytes give no instruction. -/
inductive DecodeError where
  /-- There is no first byte: the fetch address lies outside the image (spec/60_exceptions.md R105). -/
  | noBytes
  /-- The first byte matches no row of the table (R102). -/
  | noMatch (op : Byte)
  /-- The first byte resolves, but operand bytes are missing (R103). -/
  | truncated (op : Byte)
deriving DecidableEq, Repr

/-- The instruction of a 2-byte form, from the byte after `op` (R53). -/
def decodeImm8 (op : Byte) (rest : List Byte) (make : Byte → Instr) : Except DecodeError (Instr × List Byte) :=
  match rest with
  | b :: tail => .ok (make b, tail)
  | [] => .error (.truncated op)

/-- The instruction of a 5-byte form, from the four bytes after `op` (R53). -/
def decodeImm32 (op : Byte) (rest : List Byte) (make : Word → Instr) : Except DecodeError (Instr × List Byte) :=
  match rest with
  | b0 :: b1 :: b2 :: b3 :: tail => .ok (make (wordOfBytes b0 b1 b2 b3), tail)
  | _ => .error (.truncated op)

/-- The operands of a resolved form (R51 to R53). -/
def decodeForm (form : Form) (op : Byte) (rest : List Byte) : Except DecodeError (Instr × List Byte) :=
  match form with
  | .add => .ok (.add, rest)
  | .aptr => decodeImm8 op rest .aptr
  | .cmp => .ok (.cmp, rest)
  | .halt => .ok (.halt, rest)
  | .jez => decodeImm32 op rest .jez
  | .jnz => decodeImm32 op rest .jnz
  | .mvi => decodeImm8 op rest (.mvi (ByteSel.ofBits (dstField op)))
  | .mvi32 => decodeImm32 op rest (.mvi32 (WordSel.ofBits (dstField op)))
  | .mv => .ok (.mv (ByteSel.ofBits (dstField op)) (ByteSel.ofBits (srcField op)), rest)
  | .mv32 => .ok (.mv32 (WordSel.ofBits (dstField op)) (WordSel.ofBits (srcField op)), rest)
  | .out => .ok (.out, rest)
  | .sub => .ok (.sub, rest)
  | .xor => .ok (.xor, rest)

/-- The instruction at the head of a list of bytes and the bytes after it, or why there is none (R50, R55, R60). -/
def decode (bytes : List Byte) : Except DecodeError (Instr × List Byte) :=
  match bytes with
  | [] => .error .noBytes
  | op :: rest =>
    match resolve op with
    | none => .error (.noMatch op)
    | some form => decodeForm form op rest

/-- First byte of a move: `mode`, `dst`, `src` (R51, formats R, RI8 and RI32). -/
def moveByte (mode : BitVec 2) (dst src : BitVec 3) : Byte := mode ++ dst ++ src

/-- First byte of an instruction's encoding (R51, R54). -/
def opByte : Instr → Byte
  | .add => 0xC2
  | .aptr _ => 0xE1
  | .cmp => 0xC1
  | .halt => 0x01
  | .jez _ => 0x21
  | .jnz _ => 0x22
  | .mvi dst _ => moveByte 0b01 dst.bits 0b000
  | .mvi32 dst _ => moveByte 0b10 dst.bits 0b000
  | .mv dst src => moveByte 0b01 dst.bits src.bits
  | .mv32 dst src => moveByte 0b10 dst.bits src.bits
  | .out => 0x02
  | .sub => 0xC3
  | .xor => 0xC4

/-- The four bytes of a 32-bit immediate in memory order (spec/20_memory.md R35). -/
def immBytes (w : Word) : List Byte := [byteOfWord w 0, byteOfWord w 1, byteOfWord w 2, byteOfWord w 3]

/-- The bytes after the first (R51). -/
def operandBytes : Instr → List Byte
  | .aptr imm8 => [imm8]
  | .jez imm32 => immBytes imm32
  | .jnz imm32 => immBytes imm32
  | .mvi _ imm8 => [imm8]
  | .mvi32 _ imm32 => immBytes imm32
  | .add => []
  | .cmp => []
  | .halt => []
  | .mv _ _ => []
  | .mv32 _ _ => []
  | .out => []
  | .sub => []
  | .xor => []

/-- The bytes of an instruction, the first at the lowest address (R51). -/
def encode (i : Instr) : List Byte := opByte i :: operandBytes i

/-- The five bytes that an instruction whose bits are `w` occupies, every bit from `nbits` up being 0: byte `k` is bits
`8k + 7` to `8k`. -/
def tableBytes (nbits w : Nat) : List Byte :=
  let v := w % 2 ^ nbits
  [BitVec.ofNat 8 v, BitVec.ofNat 8 (v / 2 ^ 8), BitVec.ofNat 8 (v / 2 ^ 16), BitVec.ofNat 8 (v / 2 ^ 24),
    BitVec.ofNat 8 (v / 2 ^ 32)]

/-- The instruction read from the bits `w`, numbered as the opcode table numbers them. -/
def decodeTableWord (nbits w : Nat) : Option Instr :=
  match decode (tableBytes nbits w) with
  | .ok (i, _) => some i
  | .error _ => none

end Sys2Proof
end

