-- ==== Sys2Proof/Config.lean ====
section
/-! DEFINITION. What is fixed for a machine: the range of the image's length, and the model's own choices about memory
that no image has given. The core has no open value (spec/40_step_cycle.md R74), so nothing here is opaque. -/

namespace Sys2Proof.Config

/-- The shortest image a core is constructed from (spec/00_scope.md R4). -/
def minMemSize : Nat := 1

/-- The longest image a core is constructed from: 2^32 - 1 bytes (spec/00_scope.md R4, the spec's decision D2). -/
def maxMemSize : Nat := 4294967295

/-- What an address that the memory list does not name reads as. DESIGN CHOICE, log 3: for a constructed core this is
only how the list is written (a zero byte is not listed); log 2 says where it is more than that. -/
def unlistedByte : Byte := 0

/-- MEM_SIZE of `State.reset`, the machine to which no image has been presented. DESIGN CHOICE, log 2 (unsafe). -/
def resetMemSize : Nat := maxMemSize

end Sys2Proof.Config
end

