-- ==== Sys2Proof/Machine/State.lean ====
section
/-! DEFINITION. The whole state of the core (spec/10_state.md R10), why a run ends, and the state after reset. -/

namespace Sys2Proof.Machine

/-- The memory image as a list of (address, byte) pairs in one canonical form (`Memory.wf`): addresses strictly rising,
no entry equal to `Config.unlistedByte` (log 3). -/
abbrev Memory := List Host.Cell

/-- The run state (R23). RUNNING: steps are taken. HALTED and FAULTED are terminal. -/
inductive RunState where
  | running | halted | faulted
deriving DecidableEq, Repr

/-- The three fault classes (spec/60_exceptions.md R100). -/
inductive FaultClass where
  | decode | register | memoryBounds
deriving DecidableEq, Repr

/-- The six fault causes with what each records (spec/60_exceptions.md R101; the split and the records are the spec's
decision D7, log 14). `pc0` is the address of the faulting instruction and `op` its first byte. -/
inductive Cause where
  /-- Phase 1: `op` matches no form (R102). -/
  | noMatch (pc0 : Word) (op : Byte)
  /-- Phase 1: operand bytes lie past the end of memory (R103). -/
  | truncated (pc0 : Word) (op : Byte)
  /-- Phase 3: a byte-space selector names nothing (R104). -/
  | byteSpace (pc0 : Word) (op : Byte) (sel : BitVec 3)
  /-- Phase 3: a word-space selector names nothing (R104). -/
  | wordSpace (pc0 : Word) (op : Byte) (sel : BitVec 3)
  /-- Phase 1: the opcode byte lies outside the image (R105). -/
  | fetch (pc0 : Word)
  /-- Phase 3: the indirect cell lies outside the image (R106). -/
  | indirect (pc0 : Word) (op : Byte) (ea : Nat)
deriving DecidableEq, Repr

/-- The state tuple of R10. `memSize` is MEM_SIZE, a constant of a run (R4) that no step writes; it stands here because
every bounds check reads it (log 1). -/
structure State where
  a : Byte
  b : Byte
  c : Byte
  d : Byte
  e : Byte
  f : Byte
  la : Word
  lb : Word
  lc : Word
  ld : Word
  ptr : Word
  pc : Word
  mem : Memory
  memSize : Nat
  out : List Byte
  run : RunState
  cause : Option Cause
deriving DecidableEq, Repr

/-- Why the MODEL would stop. There is no such reason, so there is no constructor: from every state a step answers a
next state (spec/40_step_cycle.md R74). A fault of the MACHINE is not one of these: it is a next state with
`run = faulted` and its cause recorded (spec/60_exceptions.md R108, log 6). Safe. -/
inductive Fault where
deriving DecidableEq, Repr

/-- Why the model would give an instruction no meaning. -/
inductive Refusal where
  /-- Raised only by an arm of `exec` whose instruction has no meaning yet; no arm raises it, since all thirteen forms
  are modelled. Safe. -/
  | notModelled (mnemonic : String)
deriving DecidableEq, Repr

/-- The state right after a reset that presents a memory of `size` bytes holding `mem` (spec/10_state.md R27,
spec/70_reset_and_hazards.md R121). The register values and the entry point are the spec's decisions D4 and D5 (log 5). -/
def State.resetWith (size : Nat) (mem : Memory) : State :=
  { a := 0, b := 0, c := 0, d := 0, e := 0, f := 0,
    la := 0, lb := 0, lc := 0, ld := 0, ptr := 0, pc := 0,
    mem := mem, memSize := size, out := [], run := .running, cause := none }

/-- The machine right after reset with no image presented: memory lists nothing and has the largest size. DESIGN
CHOICE, log 2. A core with an image is `State.construct` (Machine/Ops.lean). -/
def State.reset : State := State.resetWith Config.resetMemSize []

end Sys2Proof.Machine
end

