-- ==== Sys2Proof/Machine/Memory.lean ====
section
/-! DEFINITION. The operations on the memory image (spec/20_memory.md R30 to R35) and its canonical form. -/

namespace Sys2Proof.Machine

/-- The byte at an address: MemRead(addr, 1) of R32. -/
def Memory.read (m : Memory) (addr : Nat) : Byte :=
  match m with
  | [] => Config.unlistedByte
  | (k, v) :: rest => if k = addr then v else Memory.read rest addr

/-- The list without any entry for an address. -/
def Memory.erase (m : Memory) (addr : Nat) : Memory := m.filter fun cell => cell.1 != addr

/-- The list with an entry put before the first larger address. -/
def Memory.insert (m : Memory) (addr : Nat) (v : Byte) : Memory :=
  match m with
  | [] => [(addr, v)]
  | (k, x) :: rest => if addr < k then (addr, v) :: (k, x) :: rest else (k, x) :: Memory.insert rest addr v

/-- Sets the byte at an address: MemWrite(addr, 1, v) of R33. The list stays canonical. -/
def Memory.write (m : Memory) (addr : Nat) (v : Byte) : Memory :=
  if v = Config.unlistedByte then m.erase addr else (m.erase addr).insert addr v

/-- Sets consecutive bytes from an address up. -/
def Memory.writeBytes (m : Memory) (addr : Nat) (bytes : List Byte) : Memory :=
  match bytes with
  | [] => m
  | v :: rest => Memory.writeBytes (m.write addr v) (addr + 1) rest

/-- The canonical list of an image's bytes, the first at `addr`. -/
def Memory.ofImageAt (addr : Nat) (image : List Byte) : Memory :=
  match image with
  | [] => []
  | v :: rest =>
    if v = Config.unlistedByte then Memory.ofImageAt (addr + 1) rest
    else (addr, v) :: Memory.ofImageAt (addr + 1) rest

/-- At most `n` bytes from `addr` up, none from outside a memory of `size` bytes. -/
def Memory.window (m : Memory) (size addr n : Nat) : List Byte :=
  match n with
  | 0 => []
  | k + 1 => if addr < size then m.read addr :: Memory.window m size (addr + 1) k else []

/-- Every listed address is at least `lo`, addresses rise strictly, and no entry is what an unlisted address reads. -/
def Memory.wfFrom (lo : Nat) (m : Memory) : Bool :=
  match m with
  | [] => true
  | (k, v) :: rest => decide (lo ≤ k) && v != Config.unlistedByte && Memory.wfFrom (k + 1) rest

/-- The canonical form: two memories in it with equal bytes are equal lists. -/
def Memory.wf (m : Memory) : Bool := Memory.wfFrom 0 m

/-- Every listed address lies in a memory of `size` bytes. -/
def Memory.within (m : Memory) (size : Nat) : Bool := m.all fun cell => decide (cell.1 < size)

end Sys2Proof.Machine
end

