-- ==== Sys2Proof/Machine/Ops.lean ====
section
/-! DEFINITION. The named operations on the state: construction, registers by name, the advance of `pc`, stores, output,
halting, and taking a fault. There is no return from a fault to model: FAULTED is terminal (spec/60_exceptions.md R109). -/

namespace Sys2Proof.Machine

/-- Reset with an image (spec/70_reset_and_hazards.md R120, R121). No core is constructed from an image whose length is
outside R4's range (the spec's decision D2, log 18). -/
def State.construct (image : List Byte) : Option State :=
  if Config.minMemSize ≤ image.length ∧ image.length ≤ Config.maxMemSize then
    some (State.resetWith image.length (Memory.ofImageAt 0 image))
  else none

/-- What the host is handed: `(run, cause, out)` once the run has ended, nothing before
(spec/70_reset_and_hazards.md R128, R129). -/
def State.hostResult (s : State) : Option (RunState × Option Cause × List Byte) :=
  match s.run with
  | .running => none
  | .halted => some (s.run, s.cause, s.out)
  | .faulted => some (s.run, s.cause, s.out)

/-- A byte register's contents (spec/10_state.md R11). -/
def State.byteReg (s : State) (r : ByteReg) : Byte :=
  match r with
  | .a => s.a
  | .b => s.b
  | .c => s.c
  | .d => s.d
  | .e => s.e
  | .f => s.f

/-- Write of a byte register. -/
def State.setByteReg (s : State) (r : ByteReg) (v : Byte) : State :=
  match r with
  | .a => { s with a := v }
  | .b => { s with b := v }
  | .c => { s with c := v }
  | .d => { s with d := v }
  | .e => { s with e := v }
  | .f => { s with f := v }

/-- A word register's contents (R13). -/
def State.wordReg (s : State) (r : WordReg) : Word :=
  match r with
  | .la => s.la
  | .lb => s.lb
  | .lc => s.lc
  | .ld => s.ld
  | .ptr => s.ptr
  | .pc => s.pc

/-- Write of a word register; a write of `pc` is a jump (R20). -/
def State.setWordReg (s : State) (r : WordReg) (v : Word) : State :=
  match r with
  | .la => { s with la := v }
  | .lb => { s with lb := v }
  | .lc => { s with lc := v }
  | .ld => { s with ld := v }
  | .ptr => { s with ptr := v }
  | .pc => { s with pc := v }

/-- Phase 2 of a step: `pc` moves past the instruction (spec/40_step_cycle.md R71, R72). -/
def State.advance (s : State) (length : Nat) : State := { s with pc := s.pc + BitVec.ofNat 32 length }

/-- Store of one byte (spec/20_memory.md R33). -/
def State.storeByte (s : State) (addr : Nat) (v : Byte) : State := { s with mem := s.mem.write addr v }

/-- One byte appended to the output accumulator (spec/10_state.md R24). -/
def State.emit (s : State) (v : Byte) : State := { s with out := s.out ++ [v] }

/-- Entry of HALTED (spec/42_system.md R85). -/
def State.halt (s : State) : State := { s with run := .halted }

/-- Taking a fault, the one exception entry: exactly these two writes (spec/60_exceptions.md R108). -/
def State.takeFault (s : State) (cause : Cause) : State := { s with run := .faulted, cause := some cause }

/-- The class of a cause (R101). -/
def Cause.faultClass : Cause → FaultClass
  | .noMatch _ _ => .decode
  | .truncated _ _ => .decode
  | .byteSpace _ _ _ => .register
  | .wordSpace _ _ _ => .register
  | .fetch _ => .memoryBounds
  | .indirect _ _ _ => .memoryBounds

/-- The code of a cause (R101). -/
def Cause.code : Cause → Nat
  | .noMatch _ _ => 1
  | .truncated _ _ => 2
  | .byteSpace _ _ _ => 3
  | .wordSpace _ _ _ => 4
  | .fetch _ => 5
  | .indirect _ _ _ => 6

/-- The address of the faulting instruction, which every cause records (R101). -/
def Cause.pc0 : Cause → Word
  | .noMatch pc0 _ => pc0
  | .truncated pc0 _ => pc0
  | .byteSpace pc0 _ _ => pc0
  | .wordSpace pc0 _ _ => pc0
  | .fetch pc0 => pc0
  | .indirect pc0 _ _ => pc0

/-- Whether a cause is raised in phase 1, before the advance (R101). -/
def Cause.inPhase1 : Cause → Bool
  | .noMatch _ _ => true
  | .truncated _ _ => true
  | .byteSpace _ _ _ => false
  | .wordSpace _ _ _ => false
  | .fetch _ => true
  | .indirect _ _ _ => false

/-- What an accessor raises (spec/10_state.md R17 to R20), before the step adds `pc0` and `op`. -/
inductive AccessFault where
  | byteSpace (sel : BitVec 3)
  | wordSpace (sel : BitVec 3)
  | indirect (ea : Nat)
deriving DecidableEq, Repr

/-- The cause recorded for a fault of phase 3 (R101). -/
def AccessFault.toCause (pc0 : Word) (op : Byte) : AccessFault → Cause
  | .byteSpace sel => .byteSpace pc0 op sel
  | .wordSpace sel => .wordSpace pc0 op sel
  | .indirect ea => .indirect pc0 op ea

/-- The end of phase 3: the instruction's effect, or the fault taken from `s`, the state after the advance (R108). -/
def State.conclude (s : State) (pc0 : Word) (op : Byte) (effect : Except AccessFault State) :
    Host.Outcome State Fault Refusal :=
  match effect with
  | .ok t => .next t
  | .error fault => .next (s.takeFault (fault.toCause pc0 op))

end Sys2Proof.Machine
end

