-- ==== Sys2Proof/Machine/Operands.lean ====
section
/-! DEFINITION. The four accessors: the whole interface between an instruction and the register file, and the only path
to data memory (spec/10_state.md R16 to R20, spec/20_memory.md R39, R40). -/

namespace Sys2Proof.Machine

/-- `ea = ptr + zext(c)`, not truncated (spec/20_memory.md R39; the spec's decision D8, log 11). -/
def State.indirectAddress (s : State) : Nat := s.ptr.toNat + s.c.toNat

/-- GetByte (R17). -/
def getByte (s : State) (sel : ByteSel) : Except AccessFault Byte :=
  match sel with
  | .reg r => .ok (s.byteReg r)
  | .ind =>
    if s.indirectAddress < s.memSize then .ok (s.mem.read s.indirectAddress)
    else .error (.indirect s.indirectAddress)
  | .undef => .error (.byteSpace 0)

/-- SetByte (R18). -/
def setByte (s : State) (sel : ByteSel) (v : Byte) : Except AccessFault State :=
  match sel with
  | .reg r => .ok (s.setByteReg r v)
  | .ind =>
    if s.indirectAddress < s.memSize then .ok (s.storeByte s.indirectAddress v)
    else .error (.indirect s.indirectAddress)
  | .undef => .error (.byteSpace 0)

/-- GetWord (R19). -/
def getWord (s : State) (sel : WordSel) : Except AccessFault Word :=
  match sel with
  | .reg r => .ok (s.wordReg r)
  | .undef0 => .error (.wordSpace 0)
  | .undef7 => .error (.wordSpace 7)

/-- SetWord (R20). -/
def setWord (s : State) (sel : WordSel) (v : Word) : Except AccessFault State :=
  match sel with
  | .reg r => .ok (s.setWordReg r v)
  | .undef0 => .error (.wordSpace 0)
  | .undef7 => .error (.wordSpace 7)

/-- MV's data path: the source is read before the destination is resolved (spec/44_moves.md R92; decision D9, log 13). -/
def moveByteValue (s : State) (dst src : ByteSel) : Except AccessFault State :=
  match getByte s src with
  | .ok v => setByte s dst v
  | .error fault => .error fault

/-- MV32's data path, in the same order (spec/44_moves.md R93). -/
def moveWordValue (s : State) (dst src : WordSel) : Except AccessFault State :=
  match getWord s src with
  | .ok v => setWord s dst v
  | .error fault => .error fault

end Sys2Proof.Machine
end

