-- ==== Sys2Proof/Machine/Alu.lean ====
section
/-! DEFINITION. ADD, SUB, XOR, CMP (spec/41_alu.md). -/

namespace Sys2Proof.Machine

/-- An ALU instruction's write of `a`: the advance, then `a <- op a b`. -/
def aluWrite (i : Instr) (op : Byte → Byte → Byte) (s : State) : Host.Outcome State Fault Refusal :=
  let s1 := s.advance i.length
  .next (s1.setByteReg .a (op s1.a s1.b))

/-- R80: `a <- (a + b) mod 256`. -/
def execAdd (s : State) : Host.Outcome State Fault Refusal := aluWrite .add (fun x y => x + y) s

/-- R81: `a <- (a - b) mod 256`. -/
def execSub (s : State) : Host.Outcome State Fault Refusal := aluWrite .sub (fun x y => x - y) s

/-- R82: `a <- a ^ b`. -/
def execXor (s : State) : Host.Outcome State Fault Refusal := aluWrite .xor (fun x y => x ^^^ y) s

/-- R83: `f <- 0` if `a = b`, else `f <- 1`. -/
def execCmp (s : State) : Host.Outcome State Fault Refusal :=
  let s1 := s.advance Instr.cmp.length
  .next (s1.setByteReg .f (compareFlag s1.a s1.b))

end Sys2Proof.Machine
end

