-- ==== Sys2Proof/Machine/Moves.lean ====
section
/-! DEFINITION. MV, MV32, MVI, MVI32 (spec/44_moves.md). Each advances first, so a move that reads `pc` gets the address
of the next instruction, and one that faults leaves `pc` advanced (spec/40_step_cycle.md R72). The `op` a fault records
is the instruction's own first byte (log 8). -/

namespace Sys2Proof.Machine

/-- R92: `SetByte(dst, GetByte(src))`. -/
def execMv (dst src : ByteSel) (s : State) : Host.Outcome State Fault Refusal :=
  let s1 := s.advance (Instr.mv dst src).length
  s1.conclude s.pc (opByte (.mv dst src)) (moveByteValue s1 dst src)

/-- R93: `SetWord(dst, GetWord(src))`. -/
def execMv32 (dst src : WordSel) (s : State) : Host.Outcome State Fault Refusal :=
  let s1 := s.advance (Instr.mv32 dst src).length
  s1.conclude s.pc (opByte (.mv32 dst src)) (moveWordValue s1 dst src)

/-- R94: `SetByte(dst, imm8)`. -/
def execMvi (dst : ByteSel) (imm8 : Byte) (s : State) : Host.Outcome State Fault Refusal :=
  let s1 := s.advance (Instr.mvi dst imm8).length
  s1.conclude s.pc (opByte (.mvi dst imm8)) (setByte s1 dst imm8)

/-- R95: `SetWord(dst, imm32)`. -/
def execMvi32 (dst : WordSel) (imm32 : Word) (s : State) : Host.Outcome State Fault Refusal :=
  let s1 := s.advance (Instr.mvi32 dst imm32).length
  s1.conclude s.pc (opByte (.mvi32 dst imm32)) (setWord s1 dst imm32)

end Sys2Proof.Machine
end

