-- ==== Sys2Proof/Machine/PointerBranch.lean ====
section
/-! DEFINITION. APTR, JEZ and JNZ (spec/43_pointer_branch.md). -/

namespace Sys2Proof.Machine

/-- R88: `ptr <- (ptr + zext_32(imm8)) mod 2^32` (the wrap is the spec's decision D1, log 10). -/
def execAptr (imm8 : Byte) (s : State) : Host.Outcome State Fault Refusal :=
  let s1 := s.advance (Instr.aptr imm8).length
  .next (s1.setWordReg .ptr (s1.ptr + imm8.zeroExtend 32))

/-- The advance, then a jump when `taken`; the target is not checked (R91). -/
def branch (i : Instr) (taken : Bool) (target : Word) (s : State) : Host.Outcome State Fault Refusal :=
  let s1 := s.advance i.length
  .next (if taken then s1.setWordReg .pc target else s1)

/-- R89: jump to `imm32` if `f = 0`. -/
def execJez (imm32 : Word) (s : State) : Host.Outcome State Fault Refusal :=
  branch (.jez imm32) (flagIsZero s.f) imm32 s

/-- R90: jump to `imm32` if `f` is not 0. -/
def execJnz (imm32 : Word) (s : State) : Host.Outcome State Fault Refusal :=
  branch (.jnz imm32) (!flagIsZero s.f) imm32 s

end Sys2Proof.Machine
end

