-- ==== Sys2Proof/Machine/System.lean ====
section
/-! DEFINITION. HALT and OUT (spec/42_system.md). -/

namespace Sys2Proof.Machine

/-- R85: `run <- HALTED`; `pc` is left after the instruction. -/
def execHalt (s : State) : Host.Outcome State Fault Refusal :=
  .next (s.advance Instr.halt.length).halt

/-- R86: `out <- out ++ [a]`. -/
def execOut (s : State) : Host.Outcome State Fault Refusal :=
  let s1 := s.advance Instr.out.length
  .next (s1.emit s1.a)

end Sys2Proof.Machine
end

