-- ==== Sys2Proof/Machine/Dispatch.lean ====
section
/-! DEFINITION. Phases 2 and 3 of a step: the meaning of each instruction (spec/40_step_cycle.md R73). -/

namespace Sys2Proof.Machine

/-- Runs instruction `i`, whose first byte is at `s.pc`: the advance, then the form's effect. -/
def exec (i : Instr) (s : State) : Host.Outcome State Fault Refusal :=
  match i with
  | .add => Sys2Proof.Machine.execAdd s
  | .aptr imm8 => Sys2Proof.Machine.execAptr imm8 s
  | .cmp => Sys2Proof.Machine.execCmp s
  | .halt => Sys2Proof.Machine.execHalt s
  | .jez imm32 => Sys2Proof.Machine.execJez imm32 s
  | .jnz imm32 => Sys2Proof.Machine.execJnz imm32 s
  | .mvi dst imm8 => Sys2Proof.Machine.execMvi dst imm8 s
  | .mvi32 dst imm32 => Sys2Proof.Machine.execMvi32 dst imm32 s
  | .mv dst src => Sys2Proof.Machine.execMv dst src s
  | .mv32 dst src => Sys2Proof.Machine.execMv32 dst src s
  | .out => Sys2Proof.Machine.execOut s
  | .sub => Sys2Proof.Machine.execSub s
  | .xor => Sys2Proof.Machine.execXor s

end Sys2Proof.Machine
end

