-- ==== Sys2Proof/Machine/Fetch.lean ====
section
/-! DEFINITION. Phase 1 of a step: fetch and decode (spec/40_step_cycle.md R71). -/

namespace Sys2Proof.Machine

/-- The bytes at `pc` that the longest instruction could occupy, less those outside the image. They are read anew at
every step (R75). -/
def State.fetchBytes (s : State) : List Byte := s.mem.window s.memSize s.pc.toNat 5

/-- The cause of a fault of phase 1 (spec/60_exceptions.md R102, R103, R105). -/
def DecodeError.toCause (pc0 : Word) : DecodeError → Cause
  | .noBytes => .fetch pc0
  | .noMatch op => .noMatch pc0 op
  | .truncated op => .truncated pc0 op

/-- The instruction at `pc`, or the fault of phase 1. No byte at `pc` means `pc` lies outside the image; the whole
instruction must lie inside it. -/
def fetch (s : State) : Except Cause Instr :=
  match decode s.fetchBytes with
  | .ok (i, _) => .ok i
  | .error err => .error (DecodeError.toCause s.pc err)

/-- A whole step of a RUNNING core (R71). -/
def runStep (s : State) (execute : Instr → State → Host.Outcome State Fault Refusal) :
    Host.Outcome State Fault Refusal :=
  match fetch s with
  | .ok i => execute i s
  | .error cause => .next (s.takeFault cause)

end Sys2Proof.Machine
end

