-- ==== Sys2Proof/Machine/Step.lean ====
section
/-! DEFINITION. One step of the core, and the placing of an instruction where the next step fetches. -/

namespace Sys2Proof.Machine

/-- One step (spec/40_step_cycle.md R70, R71). In HALTED and FAULTED no component changes (log 7). -/
def step (s : State) : Host.Outcome State Fault Refusal :=
  match s.run with
  | .running => runStep s exec
  | .halted => .next s
  | .faulted => .next s

/-- `s` with the instruction whose bits are `w` stored where the next step fetches: RUNNING, at `pc` where five bytes
fit below the largest size and else at 0, with `memSize` raised where the five bytes need it (log 4). -/
def State.withFetchWord (s : State) (nbits w : Nat) : State :=
  let pc0 : Word := if s.pc.toNat + 5 ≤ Config.maxMemSize then s.pc else 0
  { s with
    pc := pc0
    mem := s.mem.writeBytes pc0.toNat (tableBytes nbits w)
    memSize := max s.memSize (pc0.toNat + 5)
    run := .running
    cause := none }

end Sys2Proof.Machine
end

