-- ==== Sys2Proof/Safety.lean ====
section
/-! DEFINITION. The terms in which statements about the machine are made: the invariant, what stands at an address, the
instruction about to run, and what a run's output should be. -/

namespace Sys2Proof.Machine

/-- The invariant: memory is canonical and inside the image, the image's length is one a core is constructed from
(spec/00_scope.md R4), and a cause is held exactly in FAULTED (spec/10_state.md R23). -/
abbrev State.Inv (s : State) : Prop :=
  s.mem.wf = true ∧ s.mem.within s.memSize = true ∧
  Config.minMemSize ≤ s.memSize ∧ s.memSize ≤ Config.maxMemSize ∧
  (s.cause.isSome = true ↔ s.run = .faulted)

/-- The bytes stand in the image from `addr` up, all of them inside it. -/
abbrev State.Holds (s : State) (addr : Nat) (bytes : List Byte) : Prop :=
  addr + bytes.length ≤ s.memSize ∧ ∀ k, (h : k < bytes.length) → s.mem.read (addr + k) = bytes[k]

/-- The core is RUNNING and the bytes stand at `pc`. -/
abbrev State.About (s : State) (bytes : List Byte) : Prop := s.run = .running ∧ s.Holds s.pc.toNat bytes

/-- The instruction the next step executes, if it executes one. -/
def State.nextInstr (s : State) : Option Instr :=
  match s.run, fetch s with
  | .running, .ok i => some i
  | .running, .error _ => none
  | .halted, _ => none
  | .faulted, _ => none

/-- `t` is `s` after a fault whose cause is `cause`, with `pc` left at `pc'`: no other component differs
(spec/60_exceptions.md R108). -/
abbrev State.FaultedAs (s t : State) (pc' : Word) (cause : Cause) : Prop :=
  t = { s with pc := pc', run := .faulted, cause := some cause }

/-- The contents of `a` at each OUT that the next `k` steps execute, in order (spec/42_system.md R86). -/
def outSnapshots (k : Nat) (s : State) : List Byte :=
  match k with
  | 0 => []
  | n + 1 =>
    (if s.nextInstr = some .out then [s.a] else []) ++
      match step s with
      | .next t => outSnapshots n t
      | .fault _ => []
      | .refused _ => []

/-- The states agree on everything but `la`, `lb`, `lc` and `ld`. -/
abbrev State.AgreeButGeneralWords (s t : State) : Prop :=
  t = { s with la := t.la, lb := t.lb, lc := t.lc, ld := t.ld }

/-- The order-free decoder that spec/30_encoding.md R56 derives from the table. -/
def orderFreeResolve (op : Byte) : Option Form :=
  match (op.extractLsb' 6 2).toNat with
  | 1 => if srcField op = 0 then some .mvi else some .mv
  | 2 => if srcField op = 0 then some .mvi32 else some .mv32
  | 0 => if op = 0x01 then some .halt else if op = 0x02 then some .out
         else if op = 0x21 then some .jez else if op = 0x22 then some .jnz else none
  | _ => if op = 0xC1 then some .cmp else if op = 0xC2 then some .add
         else if op = 0xC3 then some .sub else if op = 0xC4 then some .xor
         else if op = 0xE1 then some .aptr else none

/-- The 119 illegal first bytes as spec/30_encoding.md R57 lists them. -/
def illegalFirstByte (op : Byte) : Bool :=
  let n := op.toNat
  n == 0x00 || (0x03 ≤ n && n ≤ 0x20) || (0x23 ≤ n && n ≤ 0x3F) || n == 0xC0 || (0xC5 ≤ n && n ≤ 0xE0) || 0xE2 ≤ n

/-- The 30 first bytes that resolve and name an undefined selector, as spec/30_encoding.md R58 lists them. -/
def selectorFaultByte (op : Byte) : Bool :=
  let n := op.toNat
  (0x40 ≤ n && n ≤ 0x47) || (0x80 ≤ n && n ≤ 0x87) ||
    n == 0x8F || n == 0x97 || n == 0x9F || n == 0xA7 || n == 0xAF || n == 0xB7 || (0xB8 ≤ n && n ≤ 0xBF)

end Sys2Proof.Machine
end

