-- ==== Sys2Proof/Certificates/Slice0/Obligations.lean ====
section
/-! DEFINITION. The statements for the provers. Each docstring names the rule of spec/ it formalises; where a clause rests
on a choice of the spec's own (D<n>) or of the model's (log n), the docstring says so. -/

open Sys2Proof Sys2Proof.Machine

/-! Reset and the invariant. -/

/-- R27 and R121: the registers, output and run state after reset, at the spec's decisions D4 to D6. The size and the
zero bytes are the model's choice for a machine that no image has reached (log 2, log 3). -/
def Obligations.ResetLeavesListedValues : Prop :=
  State.reset.run = .running ∧ State.reset.cause = none ∧ State.reset.out = [] ∧
  (∀ r, State.reset.byteReg r = 0) ∧ (∀ r, State.reset.wordReg r = 0) ∧
  State.reset.memSize = 2 ^ 32 - 1 ∧ ∀ addr, State.reset.mem.read addr = 0

/-- The invariant of `StepKeepsInvariant` holds at reset. -/
def Obligations.ResetMeetsInvariant : Prop := State.reset.Inv

/-- Memory stays canonical and inside the image, the image's length stays one a core is constructed from (R4), and a
cause is held exactly in FAULTED (R23), from every state that meets this, by every step. -/
def Obligations.StepKeepsInvariant : Prop := ∀ s t : State, s.Inv → step s = .next t → t.Inv

/-- R120, R121: a core constructed from an image of 1 to 2^32 - 1 bytes holds that image and the reset values (D4 to D6)
and meets the invariant; from any other image none is constructed (D2). -/
def Obligations.ConstructionLoadsImage : Prop :=
  ∀ image : List Byte,
    (1 ≤ image.length ∧ image.length ≤ 2 ^ 32 - 1 →
      ∃ s : State, State.construct image = some s ∧ s.memSize = image.length ∧
        (∀ k, (h : k < image.length) → s.mem.read k = image[k]) ∧
        (∀ r, s.byteReg r = 0) ∧ (∀ r, s.wordReg r = 0) ∧ s.out = [] ∧ s.run = .running ∧ s.cause = none ∧ s.Inv) ∧
    (image.length = 0 ∨ 2 ^ 32 - 1 < image.length → State.construct image = none)

/-- R25: construction sets the size to the image's length and the bytes to the image's, and no run changes the size. -/
def Obligations.MemorySizeIsSetOnceAtConstruction : Prop :=
  (∀ (image : List Byte) (s : State), State.construct image = some s →
    s.memSize = image.length ∧ ∀ k, (h : k < image.length) → s.mem.read k = image[k]) ∧
  ∀ (k : Nat) (s t : State), Host.Core.run core k s = .next t → t.memSize = s.memSize

/-! Encoding. -/

/-- Every instruction that some bytes decode to is decoded from its encoding, whatever bytes follow (R51 to R56). -/
def Obligations.DecodeOfEncodeIsIdentity : Prop :=
  ∀ (i : Instr) (rest : List Byte), i.wellFormed = true → decode (encode i ++ rest) = .ok (i, rest)

/-- Bytes that decode are the encoding of what they decode to, followed by the bytes left over; and no bytes decode to an
MV or MV32 whose source selector is 0 (R56, R96). -/
def Obligations.DecodedBytesAreTheEncoding : Prop :=
  ∀ (bytes : List Byte) (i : Instr) (rest : List Byte), decode bytes = .ok (i, rest) → i.wellFormed = true ∧ bytes = encode i ++ rest

/-- Bytes written out from R54's patterns, one or more per family, and the instructions they stand for (numbering D3). -/
def Obligations.WrittenOutBytesDecode : Prop :=
  decode [0b11000010] = .ok (.add, []) ∧
  decode [0b11000001, 0x77] = .ok (.cmp, [0x77]) ∧
  decode [0b00000001] = .ok (.halt, []) ∧
  decode [0b11100001, 0x05] = .ok (.aptr 0x05, []) ∧
  decode [0b00100010, 0x1D, 0x02, 0x03, 0x04] = .ok (.jnz 0x0403021D, []) ∧
  decode [0b01001111] = .ok (.mv (.reg .a) .ind, []) ∧
  decode [0b01011000, 0x03] = .ok (.mvi (.reg .c) 0x03, []) ∧
  decode [0b10101010] = .ok (.mv32 (.reg .ptr) (.reg .lb), []) ∧
  decode [0b10110000, 0x29, 0x00, 0x00, 0x80] = .ok (.mvi32 (.reg .pc) 0x80000029, [])

/-- R56: the first match in the table's order is what the order-free decoder answers. -/
def Obligations.PriorityOrderEqualsOrderFreeDecoder : Prop := ∀ op : Byte, resolve op = orderFreeResolve op

/-- R63: how many of the 256 first bytes resolve to each form. -/
def Obligations.FirstByteMapCounts : Prop :=
  let count := fun form => (List.range 256).countP fun n => resolve (BitVec.ofNat 8 n) == form
  count none = 119 ∧ count (some .mv) = 56 ∧ count (some .mv32) = 56 ∧ count (some .mvi) = 8 ∧
  count (some .mvi32) = 8 ∧ count (some .halt) = 1 ∧ count (some .out) = 1 ∧ count (some .jez) = 1 ∧
  count (some .jnz) = 1 ∧ count (some .cmp) = 1 ∧ count (some .add) = 1 ∧ count (some .sub) = 1 ∧
  count (some .xor) = 1 ∧ count (some .aptr) = 1

/-- R57: the illegal first bytes are the 119 listed, and fetching one raises NoMatch with nothing else done. -/
def Obligations.IllegalFirstBytesFault : Prop :=
  (∀ op : Byte, resolve op = none ↔ illegalFirstByte op = true) ∧
  ((List.range 256).countP fun n => illegalFirstByte (BitVec.ofNat 8 n)) = 119 ∧
  ∀ s : State, s.run = .running → s.pc.toNat < s.memSize → illegalFirstByte (s.mem.read s.pc.toNat) = true →
    ∃ pc0, step s =
      .next { s with run := .faulted, cause := some (.noMatch pc0 (s.mem.read s.pc.toNat)) }

/-- R58: the listed first bytes resolve, and where their operand bytes are there the step ends in a Register fault, `pc`
advanced and nothing else changed; byte 0x47 with its source cell outside the image ends in a Memory-bounds fault
instead (D9). The record and `pc` are the spec's D7 and D10. -/
def Obligations.SelectorFaultBytesFault : Prop :=
  ∀ op : Byte, selectorFaultByte op = true → ∃ form, resolve op = some form ∧
    ∀ s : State, s.run = .running → s.pc.toNat + form.length ≤ s.memSize → s.mem.read s.pc.toNat = op →
      ∃ (t : State) (cause : Cause), step s = .next t ∧ s.FaultedAs t (s.pc + BitVec.ofNat 32 form.length) cause ∧
        cause.pc0 = s.pc ∧
        cause.faultClass =
          if op = 0x47 ∧ s.memSize ≤ s.ptr.toNat + s.c.toNat then .memoryBounds else .register

/-! The step. -/

/-- R71, R73: when the bytes at `pc` decode, the step of a RUNNING core is that instruction's `exec`, and the instruction
is well formed. (`exec` makes the advance itself, log 9.) -/
def Obligations.StepRunsDecodedInstruction : Prop :=
  ∀ (s : State) (i : Instr) (rest : List Byte), s.run = .running → decode s.fetchBytes = .ok (i, rest) → i.wellFormed = true ∧ step s = exec i s

/-- R36, R71: an instruction whose bytes stand anywhere in the image is what the step at its first byte executes. -/
def Obligations.StepRunsStoredInstruction : Prop :=
  ∀ (s : State) (i : Instr), i.wellFormed = true → s.About (encode i) → step s = exec i s

/-- R105: `pc` outside the image faults at the fetch, with nothing else changed (record D7). -/
def Obligations.FetchOutsideImageFaults : Prop :=
  ∀ s : State, s.run = .running → s.memSize ≤ s.pc.toNat →
    step s = .next { s with run := .faulted, cause := some (.fetch s.pc) }

/-- R103: an instruction that runs past the end of memory faults before anything else is done, and only then; its class
is the spec's D19, its record D7. -/
def Obligations.TruncatedInstructionFaults : Prop :=
  ∀ (s : State) (form : Form), s.run = .running → s.pc.toNat < s.memSize → resolve (s.mem.read s.pc.toNat) = some form →
    (s.memSize < s.pc.toNat + form.length →
      step s = .next { s with run := .faulted, cause := some (.truncated s.pc (s.mem.read s.pc.toNat)) }) ∧
    (s.pc.toNat + form.length ≤ s.memSize → ∃ i, i.form = form ∧ step s = exec i s)

/-- R74: from every state a step answers a next state; from a RUNNING one it is RUNNING with no new cause, HALTED, or
FAULTED with a cause. (That an ended core's step answers its own state is log 7.) -/
def Obligations.StepIsTotal : Prop :=
  ∀ s : State, ∃ t : State, step s = .next t ∧
    (s.run = .running →
      (t.run = .running ∧ t.cause = s.cause) ∨ (t.run = .halted ∧ t.cause = s.cause) ∨
      (t.run = .faulted ∧ t.cause.isSome = true))

/-- R70, R109, R123: once HALTED or FAULTED, no number of steps changes any component (log 7), and the host is handed
the run state, the cause and the output (R128, D13). While RUNNING it is handed nothing. -/
def Obligations.EndedCoreNeverChanges : Prop :=
  (∀ (s : State) (k : Nat), s.run ≠ .running → Host.Core.run core k s = .next s ∧ s.hostResult = some (s.run, s.cause, s.out)) ∧
  ∀ s : State, s.run = .running → s.hostResult = none

/-- R108: a step that faults writes `run` and `cause` and no other component but `pc`, which stays in phase 1 and is past
the instruction in phase 3; the cause names the instruction's address (D7, D10). -/
def Obligations.FaultWritesOnlyRunAndCause : Prop :=
  ∀ s t : State, s.run = .running → step s = .next t → t.run = .faulted →
    ∃ cause, s.FaultedAs t t.pc cause ∧ cause.pc0 = s.pc ∧
      (cause.inPhase1 = true → t.pc = s.pc ∧ s.nextInstr = none) ∧
      (cause.inPhase1 = false → ∃ i, s.nextInstr = some i ∧ t.pc = s.pc + BitVec.ofNat 32 i.length)

/-- R91: the ways `pc` changes, over every instruction (selector numbers of `pc` by D3, source before destination D9);
a step that executes no instruction leaves `pc`. -/
def Obligations.PcChangesInFourWays : Prop :=
  ∀ s t : State, step s = .next t →
    (s.nextInstr = none → t.pc = s.pc) ∧
    ∀ i, s.nextInstr = some i →
      t.pc = match i with
        | .jez target => if s.f = 0 then target else s.pc + 5
        | .jnz target => if s.f ≠ 0 then target else s.pc + 5
        | .mvi32 (.reg .pc) target => target
        | .mv32 (.reg .pc) (.reg src) => if src = .pc then s.pc + 1 else s.wordReg src
        | _ => s.pc + BitVec.ofNat 32 i.length

/-- R28: which instructions a step may owe a change of each component to. -/
def Obligations.OnlyListedInstructionsWrite : Prop :=
  ∀ s t : State, step s = .next t →
    (∀ r, t.byteReg r ≠ s.byteReg r →
      (r = .a ∧ s.nextInstr ∈ [some .add, some .sub, some .xor]) ∨ (r = .f ∧ s.nextInstr = some .cmp) ∨
      (∃ src, s.nextInstr = some (.mv (.reg r) src)) ∨ ∃ v, s.nextInstr = some (.mvi (.reg r) v)) ∧
    (∀ r, r ≠ .pc → t.wordReg r ≠ s.wordReg r →
      (r = .ptr ∧ ∃ v, s.nextInstr = some (.aptr v)) ∨
      (∃ src, s.nextInstr = some (.mv32 (.reg r) src)) ∨ ∃ v, s.nextInstr = some (.mvi32 (.reg r) v)) ∧
    (t.out ≠ s.out → s.nextInstr = some .out) ∧
    (t.run ≠ s.run → s.nextInstr = some .halt ∨ t.run = .faulted) ∧
    (t.cause ≠ s.cause → t.run = .faulted)

/-- R34, R33: a step changes a byte of memory only at the indirect cell, inside the image, by MV or MVI with destination
selector 7. -/
def Obligations.MemoryChangesOnlyAtIndirectCell : Prop :=
  ∀ (s t : State) (addr : Nat), step s = .next t → t.mem.read addr ≠ s.mem.read addr →
    addr = s.ptr.toNat + s.c.toNat ∧ addr < s.memSize ∧
    ((∃ src, s.nextInstr = some (.mv .ind src)) ∨ s.nextInstr = some (.mvi .ind (t.mem.read addr)))

/-- R44: after an indirect store, by MVI or MV, the first byte fetched at any `pc` is the stored one at the cell's
address and the old one elsewhere; the storing instruction's own bytes may be among them. -/
def Obligations.StoreIsSeenByNextFetch : Prop :=
  ∀ (s : State) (i : Instr) (v : Byte), s.ptr.toNat + s.c.toNat < s.memSize →
    (i = .mvi .ind v ∨ ∃ r, i = .mv .ind (.reg r) ∧ v = s.byteReg r) →
    ∃ t : State, exec i s = .next t ∧ t.memSize = s.memSize ∧ ∀ pc' : Word,
      ({ t with pc := pc' } : State).fetchBytes.head? =
        if pc'.toNat < s.memSize then
          some (if pc'.toNat = s.ptr.toNat + s.c.toNat then v else s.mem.read pc'.toNat)
        else none

/-- The placing of a table word (log 4): the very next step runs the instruction the word decodes to. -/
def Obligations.PlacedWordRunsNext : Prop :=
  ∀ (s : State) (nbits w : Nat) (i : Instr), decodeTableWord nbits w = some i →
    step (s.withFetchWord nbits w) = exec i (s.withFetchWord nbits w)

/-! What the machine does not read. -/

/-- R24: no step reads the output: bytes put before it stay there and change nothing else. -/
def Obligations.OutputIsNeverRead : Prop :=
  ∀ (s t : State) (before : List Byte), step s = .next t →
    step { s with out := before ++ s.out } = .next { t with out := before ++ t.out }

/-- R23: no instruction reads the run state or the cause. -/
def Obligations.RunStateAndCauseAreNeverRead : Prop :=
  ∀ (i : Instr) (s t : State) (run : RunState) (cause : Option Cause), exec i s = .next t →
    ∃ u, exec i { s with run := run, cause := cause } = .next u ∧ u = { t with run := u.run, cause := u.cause }

/-- R13: `la` to `ld` are read by MV32 alone: states that differ in nothing else go to states that differ in nothing else
by every other instruction. -/
def Obligations.GeneralWordsAreReadOnlyByMoves : Prop :=
  ∀ (i : Instr) (s s' t : State), s.AgreeButGeneralWords s' → (∀ dst src, i ≠ .mv32 dst src) → exec i s = .next t →
    ∃ t', exec i s' = .next t' ∧ t.AgreeButGeneralWords t'

/-! ALU instructions. -/

/-- R80; a 1-byte form cannot be truncated, so outside the image only the fetch faults. -/
def Obligations.AddWritesSumModulo256 : Prop :=
  (∀ rest, decode (0xC2 :: rest) = .ok (.add, rest)) ∧
  ∀ s : State,
    let t : State := { s with a := BitVec.ofNat 8 ((s.a.toNat + s.b.toNat) % 256), pc := s.pc + 1 }
    exec .add s = .next t ∧ (s.About [0xC2] → step s = .next t) ∧
    (s.run = .running → s.memSize ≤ s.pc.toNat →
      ∃ pc0, step s = .next { s with run := .faulted, cause := some (.fetch pc0) })

/-- R81. -/
def Obligations.SubWritesDifferenceModulo256 : Prop :=
  (∀ rest, decode (0xC3 :: rest) = .ok (.sub, rest)) ∧
  ∀ s : State,
    let difference := if s.b.toNat ≤ s.a.toNat then s.a.toNat - s.b.toNat else s.a.toNat + 256 - s.b.toNat
    let t : State := { s with a := BitVec.ofNat 8 difference, pc := s.pc + 1 }
    difference < 256 ∧ exec .sub s = .next t ∧ (s.About [0xC3] → step s = .next t)

/-- R82, bit by bit. -/
def Obligations.XorWritesBitwiseExclusiveOr : Prop :=
  (∀ rest, decode (0xC4 :: rest) = .ok (.xor, rest)) ∧
  ∀ s : State, ∃ t : State, exec .xor s = .next t ∧ t = { s with a := t.a, pc := s.pc + 1 } ∧
    (∀ k, k < 8 → t.a.getLsbD k = (s.a.getLsbD k != s.b.getLsbD k)) ∧ (s.About [0xC4] → step s = .next t)

/-- R83, with the branches that follow it when nothing writes `f` in between. -/
def Obligations.CmpWritesFlag : Prop :=
  (∀ rest, decode (0xC1 :: rest) = .ok (.cmp, rest)) ∧
  ∀ s : State,
    let t : State := { s with f := if s.a = s.b then 0 else 1, pc := s.pc + 1 }
    exec .cmp s = .next t ∧ (s.About [0xC1] → step s = .next t) ∧
    ∀ target : Word,
      exec (.jez target) t = .next { t with pc := if s.a = s.b then target else t.pc + 5 } ∧
      exec (.jnz target) t = .next { t with pc := if s.a = s.b then t.pc + 5 else target }

/-! System instructions. -/

/-- R85: the step that executes 0x01 halts with `pc` past it, wherever that is, hands over the output, and no further
step changes anything; a step of a RUNNING core ends HALTED in no other way. -/
def Obligations.HaltEndsTheRun : Prop :=
  (∀ rest, decode (0x01 :: rest) = .ok (.halt, rest)) ∧
  (∀ s : State,
    let t : State := { s with run := .halted, pc := s.pc + 1 }
    exec .halt s = .next t ∧ (s.About [0x01] → step s = .next t) ∧
    t.hostResult = some (.halted, s.cause, s.out) ∧
    ∀ (k : Nat) (u : State), Host.Core.run core k t = .next u → u = t) ∧
  ∀ s t : State, s.run = .running → step s = .next t → t.run = .halted → s.About [0x01]

/-- R86: OUT appends `a`, and over any number of steps from any state the output grows by exactly the contents of `a` at
each OUT executed, in order. -/
def Obligations.OutAppendsSnapshotsInOrder : Prop :=
  (∀ rest, decode (0x02 :: rest) = .ok (.out, rest)) ∧
  (∀ s : State,
    let t : State := { s with out := s.out ++ [s.a], pc := s.pc + 1 }
    exec .out s = .next t ∧ (s.About [0x02] → step s = .next t)) ∧
  ∀ (k : Nat) (s t : State), Host.Core.run core k s = .next t → t.out = s.out ++ outSnapshots k s

/-! Pointer and branch instructions. -/

/-- R88: the wrap modulo 2^32 is the spec's decision D1, the record of the truncation fault D7. -/
def Obligations.AptrAddsUnsignedImmediate : Prop :=
  ∀ (imm8 : Byte) (s : State),
    let t : State := { s with ptr := BitVec.ofNat 32 ((s.ptr.toNat + imm8.toNat) % 2 ^ 32), pc := s.pc + 2 }
    exec (.aptr imm8) s = .next t ∧ (s.About [0xE1, imm8] → step s = .next t) ∧
    (s.run = .running → s.pc.toNat + 1 = s.memSize → s.mem.read s.pc.toNat = 0xE1 →
      step s = .next { s with run := .faulted, cause := some (.truncated s.pc 0xE1) })

/-- What R89 and R90 say of a branch with first byte `op` that jumps when `taken f`: its encoding with the target least
significant byte first, its result, its truncation, and where a bad target faults. -/
def branchRule (op : Byte) (make : Word → Instr) (taken : Byte → Bool) : Prop :=
  (∀ (b0 b1 b2 b3 : Byte) (s : State),
    let target := BitVec.ofNat 32 (b0.toNat + 2 ^ 8 * b1.toNat + 2 ^ 16 * b2.toNat + 2 ^ 24 * b3.toNat)
    let t : State := { s with pc := if taken s.f then target else s.pc + 5 }
    (∀ rest, decode (op :: b0 :: b1 :: b2 :: b3 :: rest) = .ok (make target, rest)) ∧
    (s.About [op, b0, b1, b2, b3] → step s = .next t) ∧
    (s.run = .running → t.memSize ≤ t.pc.toNat →
      ∃ pc0, step t = .next { t with run := .faulted, cause := some (.fetch pc0) }) ∧
    (s.run = .running → t.pc.toNat < t.memSize → resolve (t.mem.read t.pc.toNat) = none →
      ∃ pc0 bad, step t = .next { t with run := .faulted, cause := some (.noMatch pc0 bad) })) ∧
  (∀ (target : Word) (s : State), exec (make target) s = .next { s with pc := if taken s.f then target else s.pc + 5 }) ∧
  ∀ s : State, s.run = .running → s.pc.toNat < s.memSize → s.memSize < s.pc.toNat + 5 →
    s.mem.read s.pc.toNat = op →
    ∃ pc0 first, step s = .next { s with run := .faulted, cause := some (.truncated pc0 first) }

/-- R89. -/
def Obligations.JezJumpsWhenFlagIsZero : Prop := branchRule 0x21 .jez fun f => f = 0

/-- R90; and for every `f` exactly one of JEZ and JNZ jumps. -/
def Obligations.JnzJumpsWhenFlagIsNotZero : Prop :=
  (branchRule 0x22 .jnz fun f => f ≠ 0) ∧
  ∀ (s : State) (target : Word), target ≠ s.pc + 5 → ∃ t u : State,
    exec (.jez target) s = .next t ∧ exec (.jnz target) s = .next u ∧
    ((t.pc = target ∧ u.pc = s.pc + 5) ∨ (t.pc = s.pc + 5 ∧ u.pc = target))

/-! Moves. The selector numbers are the spec's decision D3, the untruncated address D8, the order of the two operands
D9, the record of a fault D7 and the `pc` it leaves D10. -/

/-- R92, register to register. -/
def Obligations.MvCopiesRegister : Prop :=
  ∀ (dst src : ByteReg) (s : State), ∃ t : State,
    exec (.mv (.reg dst) (.reg src)) s = .next t ∧
    (∀ r, t.byteReg r = if r = dst then s.byteReg src else s.byteReg r) ∧
    t = { s with a := t.a, b := t.b, c := t.c, d := t.d, e := t.e, f := t.f, pc := s.pc + 1 }

/-- R92, R97: load from `ptr + c`, formed from the old `c`. -/
def Obligations.MvLoadsIndirectByte : Prop :=
  ∀ (dst : ByteReg) (s : State), s.ptr.toNat + s.c.toNat < s.memSize → ∃ t : State,
    exec (.mv (.reg dst) .ind) s = .next t ∧
    (∀ r, t.byteReg r = if r = dst then s.mem.read (s.ptr.toNat + s.c.toNat) else s.byteReg r) ∧
    t = { s with a := t.a, b := t.b, c := t.c, d := t.d, e := t.e, f := t.f, pc := s.pc + 1 }

/-- R92, R97: store to `ptr + c`; and the cell copied onto itself, which changes no byte. -/
def Obligations.MvStoresIndirectByte : Prop :=
  ∀ s : State, s.ptr.toNat + s.c.toNat < s.memSize →
    (∀ src : ByteReg, ∃ t : State, exec (.mv .ind (.reg src)) s = .next t ∧
      (∀ x, t.mem.read x = if x = s.ptr.toNat + s.c.toNat then s.byteReg src else s.mem.read x) ∧
      t = { s with mem := t.mem, pc := s.pc + 1 }) ∧
    ∃ t : State, exec (.mv .ind .ind) s = .next t ∧ (∀ x, t.mem.read x = s.mem.read x) ∧
      (s.mem.wf = true → t.mem = s.mem) ∧ t = { s with mem := t.mem, pc := s.pc + 1 }

/-- R92, R104, R106, R107: every fault of MV, the source's before the destination's. -/
def Obligations.MvFaultsInOrder : Prop :=
  ∀ (dst src : ByteSel) (s : State),
    let ea := s.ptr.toNat + s.c.toNat
    let op := opByte (.mv dst src)
    let faulted : Cause → State := fun cause => { s with pc := s.pc + 1, run := .faulted, cause := some cause }
    (src = .ind → s.memSize ≤ ea → exec (.mv dst src) s = .next (faulted (.indirect s.pc op ea))) ∧
    (src ≠ .undef → (src = .ind → ea < s.memSize) → dst = .undef →
      exec (.mv dst src) s = .next (faulted (.byteSpace s.pc op 0))) ∧
    (src ≠ .undef → src ≠ .ind → dst = .ind → s.memSize ≤ ea →
      exec (.mv dst src) s = .next (faulted (.indirect s.pc op ea)))

/-- R94: MVI to a register, to the indirect cell, and its faults. -/
def Obligations.MviWritesImmediate : Prop :=
  ∀ (imm8 : Byte) (s : State),
    let ea := s.ptr.toNat + s.c.toNat
    (∀ dst : ByteReg, ∃ t : State, exec (.mvi (.reg dst) imm8) s = .next t ∧
      (∀ r, t.byteReg r = if r = dst then imm8 else s.byteReg r) ∧
      t = { s with a := t.a, b := t.b, c := t.c, d := t.d, e := t.e, f := t.f, pc := s.pc + 2 }) ∧
    (ea < s.memSize → ∃ t : State, exec (.mvi .ind imm8) s = .next t ∧
      (∀ x, t.mem.read x = if x = ea then imm8 else s.mem.read x) ∧
      t = { s with mem := t.mem, pc := s.pc + 2 }) ∧
    (s.memSize ≤ ea → exec (.mvi .ind imm8) s =
      .next { s with pc := s.pc + 2, run := .faulted, cause := some (.indirect s.pc 0x78 ea) }) ∧
    exec (.mvi .undef imm8) s =
      .next { s with pc := s.pc + 2, run := .faulted, cause := some (.byteSpace s.pc 0x40 0) }

/-- R93: MV32 between word registers; `pc` reads as the next instruction's address, and a write of `pc` is a jump. -/
def Obligations.Mv32CopiesWordRegister : Prop :=
  ∀ (dst src : WordReg) (s : State),
    let value := if src = .pc then s.pc + 1 else s.wordReg src
    ∃ t : State, exec (.mv32 (.reg dst) (.reg src)) s = .next t ∧
      (∀ r, t.wordReg r = if r = dst then value else if r = .pc then s.pc + 1 else s.wordReg r) ∧
      t = { s with la := t.la, lb := t.lb, lc := t.lc, ld := t.ld, ptr := t.ptr, pc := t.pc }

/-- R93, R104: every fault of MV32, the source's before the destination's. -/
def Obligations.Mv32FaultsInOrder : Prop :=
  ∀ (dst src : WordSel) (s : State),
    let op := opByte (.mv32 dst src)
    let faulted : Cause → State := fun cause => { s with pc := s.pc + 1, run := .faulted, cause := some cause }
    (src = .undef7 → exec (.mv32 dst src) s = .next (faulted (.wordSpace s.pc op 7))) ∧
    (∀ r, src = .reg r → dst = .undef0 → exec (.mv32 dst src) s = .next (faulted (.wordSpace s.pc op 0))) ∧
    (∀ r, src = .reg r → dst = .undef7 → exec (.mv32 dst src) s = .next (faulted (.wordSpace s.pc op 7)))

/-- R95: MVI32 from its five bytes, the immediate least significant byte first, to any word register (`pc`: a jump with
no length added), and its faults. -/
def Obligations.Mvi32WritesImmediate : Prop :=
  (∀ (dst : WordSel) (b0 b1 b2 b3 : Byte) (rest : List Byte),
    decode (moveByte 0b10 dst.bits 0 :: b0 :: b1 :: b2 :: b3 :: rest) =
      .ok (.mvi32 dst (BitVec.ofNat 32 (b0.toNat + 2 ^ 8 * b1.toNat + 2 ^ 16 * b2.toNat + 2 ^ 24 * b3.toNat)), rest)) ∧
  ∀ (imm32 : Word) (s : State),
    (∀ dst : WordReg, ∃ t : State, exec (.mvi32 (.reg dst) imm32) s = .next t ∧
      (∀ r, t.wordReg r = if r = dst then imm32 else if r = .pc then s.pc + 5 else s.wordReg r) ∧
      t = { s with la := t.la, lb := t.lb, lc := t.lc, ld := t.ld, ptr := t.ptr, pc := t.pc }) ∧
    exec (.mvi32 .undef0 imm32) s =
      .next { s with pc := s.pc + 5, run := .faulted, cause := some (.wordSpace s.pc 0x80 0) } ∧
    exec (.mvi32 .undef7 imm32) s =
      .next { s with pc := s.pc + 5, run := .faulted, cause := some (.wordSpace s.pc 0xB8 7) }

/-! Frames. -/

/-- ADD, SUB and XOR leave all but `a` and `pc`; CMP leaves all but `f` and `pc`. -/
def Obligations.AluFrame : Prop :=
  ∀ (i : Instr) (s t : State), i ∈ [Instr.add, .sub, .xor, .cmp] → exec i s = .next t →
    (∀ r, r ≠ (if i = .cmp then ByteReg.f else .a) → t.byteReg r = s.byteReg r) ∧
    (∀ r, r ≠ .pc → t.wordReg r = s.wordReg r) ∧ (∀ x, t.mem.read x = s.mem.read x) ∧
    t.memSize = s.memSize ∧ t.out = s.out ∧ t.run = s.run ∧ t.cause = s.cause

/-- HALT, OUT, APTR, JEZ and JNZ leave every byte register and all of memory; only APTR writes `ptr`, only OUT the output,
only HALT the run state. -/
def Obligations.ControlFrame : Prop :=
  ∀ (i : Instr) (s t : State), (i = .halt ∨ i = .out ∨ (∃ v, i = .aptr v) ∨ (∃ w, i = .jez w) ∨ ∃ w, i = .jnz w) → exec i s = .next t →
    (∀ r, t.byteReg r = s.byteReg r) ∧
    (∀ r, r ≠ .pc → (r = .ptr → ∀ v, i ≠ .aptr v) → t.wordReg r = s.wordReg r) ∧
    (∀ x, t.mem.read x = s.mem.read x) ∧ t.memSize = s.memSize ∧ t.cause = s.cause ∧
    (i ≠ .out → t.out = s.out) ∧ (i ≠ .halt → t.run = s.run)

/-- MV and MVI leave every byte register but the destination, every word register but `pc`, the output, and every byte
of memory but the indirect cell where that is the destination; the run state and the cause change only by a fault. -/
def Obligations.ByteMoveFrame : Prop :=
  ∀ (i : Instr) (dst : ByteSel) (s t : State), ((∃ src, i = .mv dst src) ∨ ∃ v, i = .mvi dst v) → exec i s = .next t →
    (∀ r, dst ≠ .reg r → t.byteReg r = s.byteReg r) ∧ (∀ r, r ≠ .pc → t.wordReg r = s.wordReg r) ∧
    (∀ x, (dst = .ind → x ≠ s.indirectAddress) → t.mem.read x = s.mem.read x) ∧
    t.memSize = s.memSize ∧ t.out = s.out ∧
    ((t.run = s.run ∧ t.cause = s.cause) ∨ (t.run = .faulted ∧ t.cause.isSome = true))

/-- MV32 and MVI32 leave every byte register, every word register but the destination and `pc`, the output and all of
memory; the run state and the cause change only by a fault. -/
def Obligations.WordMoveFrame : Prop :=
  ∀ (i : Instr) (dst : WordSel) (s t : State), ((∃ src, i = .mv32 dst src) ∨ ∃ v, i = .mvi32 dst v) → exec i s = .next t →
    (∀ r, t.byteReg r = s.byteReg r) ∧ (∀ r, r ≠ .pc → dst ≠ .reg r → t.wordReg r = s.wordReg r) ∧
    (∀ x, t.mem.read x = s.mem.read x) ∧ t.memSize = s.memSize ∧ t.out = s.out ∧
    ((t.run = s.run ∧ t.cause = s.cause) ∨ (t.run = .faulted ∧ t.cause.isSome = true))
end

