-- ==== Sys2Proof/Laws/Decode.lean ====
section
/-! SUPPORT. Selector fields as bits, and the parts of a move's first byte. -/

namespace Sys2Proof

@[simp] theorem ByteSel.ofBits_bits (sel : ByteSel) : ByteSel.ofBits sel.bits = sel := by
  cases sel with
  | reg r => cases r <;> rfl
  | undef => rfl
  | ind => rfl

@[simp] theorem ByteSel.bits_ofBits : ∀ b : BitVec 3, (ByteSel.ofBits b).bits = b := by decide

@[simp] theorem WordSel.ofBits_bits (sel : WordSel) : WordSel.ofBits sel.bits = sel := by
  cases sel with
  | reg r => cases r <;> rfl
  | undef0 => rfl
  | undef7 => rfl

@[simp] theorem WordSel.bits_ofBits : ∀ b : BitVec 3, (WordSel.ofBits b).bits = b := by decide

@[simp] theorem dstField_moveByte : ∀ (mode : BitVec 2) (dst src : BitVec 3), dstField (moveByte mode dst src) = dst := by
  decide

@[simp] theorem srcField_moveByte : ∀ (mode : BitVec 2) (dst src : BitVec 3), srcField (moveByte mode dst src) = src := by
  decide

/-- A word is the word of its four bytes. -/
@[simp] theorem wordOfBytes_byteOfWord (w : Word) :
    wordOfBytes (byteOfWord w 0) (byteOfWord w 1) (byteOfWord w 2) (byteOfWord w 3) = w := by
  apply BitVec.eq_of_getLsbD_eq
  intro i hi
  simp only [wordOfBytes, byteOfWord, BitVec.getLsbD_append, BitVec.getLsbD_extractLsb']
  by_cases h0 : i < 8
  · simp [h0]
  · by_cases h1 : i < 16
    · have : i - 8 < 8 := by omega
      simp [h0, this]
      congr 1; omega
    · by_cases h2 : i < 24
      · have h3 : ¬ i - 8 < 8 := by omega
        have h4 : i - 8 - 8 < 8 := by omega
        simp [h0, h3, h4]
        congr 1; omega
      · have h3 : ¬ i - 8 < 8 := by omega
        have h4 : ¬ i - 8 - 8 < 8 := by omega
        have h5 : i - 8 - 8 - 8 < 8 := by omega
        simp [h0, h3, h4, h5]
        congr 1; omega

end Sys2Proof
end

