-- ==== Sys2Proof/Laws/State.lean ====
section
/-! SUPPORT. One lemma per field per update of the state, and the register files as functions of a register's name. -/

namespace Sys2Proof.Machine

variable (s : State)

@[simp] theorem State.advance_a (n : Nat) : (s.advance n).a = s.a := rfl
@[simp] theorem State.advance_b (n : Nat) : (s.advance n).b = s.b := rfl
@[simp] theorem State.advance_c (n : Nat) : (s.advance n).c = s.c := rfl
@[simp] theorem State.advance_d (n : Nat) : (s.advance n).d = s.d := rfl
@[simp] theorem State.advance_e (n : Nat) : (s.advance n).e = s.e := rfl
@[simp] theorem State.advance_f (n : Nat) : (s.advance n).f = s.f := rfl
@[simp] theorem State.advance_la (n : Nat) : (s.advance n).la = s.la := rfl
@[simp] theorem State.advance_lb (n : Nat) : (s.advance n).lb = s.lb := rfl
@[simp] theorem State.advance_lc (n : Nat) : (s.advance n).lc = s.lc := rfl
@[simp] theorem State.advance_ld (n : Nat) : (s.advance n).ld = s.ld := rfl
@[simp] theorem State.advance_ptr (n : Nat) : (s.advance n).ptr = s.ptr := rfl
@[simp] theorem State.advance_pc (n : Nat) : (s.advance n).pc = s.pc + BitVec.ofNat 32 n := rfl
@[simp] theorem State.advance_mem (n : Nat) : (s.advance n).mem = s.mem := rfl
@[simp] theorem State.advance_memSize (n : Nat) : (s.advance n).memSize = s.memSize := rfl
@[simp] theorem State.advance_out (n : Nat) : (s.advance n).out = s.out := rfl
@[simp] theorem State.advance_run (n : Nat) : (s.advance n).run = s.run := rfl
@[simp] theorem State.advance_cause (n : Nat) : (s.advance n).cause = s.cause := rfl

@[simp] theorem State.storeByte_a (addr : Nat) (v : Byte) : (s.storeByte addr v).a = s.a := rfl
@[simp] theorem State.storeByte_b (addr : Nat) (v : Byte) : (s.storeByte addr v).b = s.b := rfl
@[simp] theorem State.storeByte_c (addr : Nat) (v : Byte) : (s.storeByte addr v).c = s.c := rfl
@[simp] theorem State.storeByte_d (addr : Nat) (v : Byte) : (s.storeByte addr v).d = s.d := rfl
@[simp] theorem State.storeByte_e (addr : Nat) (v : Byte) : (s.storeByte addr v).e = s.e := rfl
@[simp] theorem State.storeByte_f (addr : Nat) (v : Byte) : (s.storeByte addr v).f = s.f := rfl
@[simp] theorem State.storeByte_la (addr : Nat) (v : Byte) : (s.storeByte addr v).la = s.la := rfl
@[simp] theorem State.storeByte_lb (addr : Nat) (v : Byte) : (s.storeByte addr v).lb = s.lb := rfl
@[simp] theorem State.storeByte_lc (addr : Nat) (v : Byte) : (s.storeByte addr v).lc = s.lc := rfl
@[simp] theorem State.storeByte_ld (addr : Nat) (v : Byte) : (s.storeByte addr v).ld = s.ld := rfl
@[simp] theorem State.storeByte_ptr (addr : Nat) (v : Byte) : (s.storeByte addr v).ptr = s.ptr := rfl
@[simp] theorem State.storeByte_pc (addr : Nat) (v : Byte) : (s.storeByte addr v).pc = s.pc := rfl
@[simp] theorem State.storeByte_mem (addr : Nat) (v : Byte) : (s.storeByte addr v).mem = s.mem.write addr v := rfl
@[simp] theorem State.storeByte_memSize (addr : Nat) (v : Byte) : (s.storeByte addr v).memSize = s.memSize := rfl
@[simp] theorem State.storeByte_out (addr : Nat) (v : Byte) : (s.storeByte addr v).out = s.out := rfl
@[simp] theorem State.storeByte_run (addr : Nat) (v : Byte) : (s.storeByte addr v).run = s.run := rfl
@[simp] theorem State.storeByte_cause (addr : Nat) (v : Byte) : (s.storeByte addr v).cause = s.cause := rfl

@[simp] theorem State.emit_a (v : Byte) : (s.emit v).a = s.a := rfl
@[simp] theorem State.emit_b (v : Byte) : (s.emit v).b = s.b := rfl
@[simp] theorem State.emit_c (v : Byte) : (s.emit v).c = s.c := rfl
@[simp] theorem State.emit_d (v : Byte) : (s.emit v).d = s.d := rfl
@[simp] theorem State.emit_e (v : Byte) : (s.emit v).e = s.e := rfl
@[simp] theorem State.emit_f (v : Byte) : (s.emit v).f = s.f := rfl
@[simp] theorem State.emit_la (v : Byte) : (s.emit v).la = s.la := rfl
@[simp] theorem State.emit_lb (v : Byte) : (s.emit v).lb = s.lb := rfl
@[simp] theorem State.emit_lc (v : Byte) : (s.emit v).lc = s.lc := rfl
@[simp] theorem State.emit_ld (v : Byte) : (s.emit v).ld = s.ld := rfl
@[simp] theorem State.emit_ptr (v : Byte) : (s.emit v).ptr = s.ptr := rfl
@[simp] theorem State.emit_pc (v : Byte) : (s.emit v).pc = s.pc := rfl
@[simp] theorem State.emit_mem (v : Byte) : (s.emit v).mem = s.mem := rfl
@[simp] theorem State.emit_memSize (v : Byte) : (s.emit v).memSize = s.memSize := rfl
@[simp] theorem State.emit_out (v : Byte) : (s.emit v).out = s.out ++ [v] := rfl
@[simp] theorem State.emit_run (v : Byte) : (s.emit v).run = s.run := rfl
@[simp] theorem State.emit_cause (v : Byte) : (s.emit v).cause = s.cause := rfl

@[simp] theorem State.halt_a : (s.halt).a = s.a := rfl
@[simp] theorem State.halt_b : (s.halt).b = s.b := rfl
@[simp] theorem State.halt_c : (s.halt).c = s.c := rfl
@[simp] theorem State.halt_d : (s.halt).d = s.d := rfl
@[simp] theorem State.halt_e : (s.halt).e = s.e := rfl
@[simp] theorem State.halt_f : (s.halt).f = s.f := rfl
@[simp] theorem State.halt_la : (s.halt).la = s.la := rfl
@[simp] theorem State.halt_lb : (s.halt).lb = s.lb := rfl
@[simp] theorem State.halt_lc : (s.halt).lc = s.lc := rfl
@[simp] theorem State.halt_ld : (s.halt).ld = s.ld := rfl
@[simp] theorem State.halt_ptr : (s.halt).ptr = s.ptr := rfl
@[simp] theorem State.halt_pc : (s.halt).pc = s.pc := rfl
@[simp] theorem State.halt_mem : (s.halt).mem = s.mem := rfl
@[simp] theorem State.halt_memSize : (s.halt).memSize = s.memSize := rfl
@[simp] theorem State.halt_out : (s.halt).out = s.out := rfl
@[simp] theorem State.halt_run : (s.halt).run = .halted := rfl
@[simp] theorem State.halt_cause : (s.halt).cause = s.cause := rfl

@[simp] theorem State.takeFault_a (k : Cause) : (s.takeFault k).a = s.a := rfl
@[simp] theorem State.takeFault_b (k : Cause) : (s.takeFault k).b = s.b := rfl
@[simp] theorem State.takeFault_c (k : Cause) : (s.takeFault k).c = s.c := rfl
@[simp] theorem State.takeFault_d (k : Cause) : (s.takeFault k).d = s.d := rfl
@[simp] theorem State.takeFault_e (k : Cause) : (s.takeFault k).e = s.e := rfl
@[simp] theorem State.takeFault_f (k : Cause) : (s.takeFault k).f = s.f := rfl
@[simp] theorem State.takeFault_la (k : Cause) : (s.takeFault k).la = s.la := rfl
@[simp] theorem State.takeFault_lb (k : Cause) : (s.takeFault k).lb = s.lb := rfl
@[simp] theorem State.takeFault_lc (k : Cause) : (s.takeFault k).lc = s.lc := rfl
@[simp] theorem State.takeFault_ld (k : Cause) : (s.takeFault k).ld = s.ld := rfl
@[simp] theorem State.takeFault_ptr (k : Cause) : (s.takeFault k).ptr = s.ptr := rfl
@[simp] theorem State.takeFault_pc (k : Cause) : (s.takeFault k).pc = s.pc := rfl
@[simp] theorem State.takeFault_mem (k : Cause) : (s.takeFault k).mem = s.mem := rfl
@[simp] theorem State.takeFault_memSize (k : Cause) : (s.takeFault k).memSize = s.memSize := rfl
@[simp] theorem State.takeFault_out (k : Cause) : (s.takeFault k).out = s.out := rfl
@[simp] theorem State.takeFault_run (k : Cause) : (s.takeFault k).run = .faulted := rfl
@[simp] theorem State.takeFault_cause (k : Cause) : (s.takeFault k).cause = some k := rfl

@[simp] theorem State.setByteReg_la (r : ByteReg) (v : Byte) : (s.setByteReg r v).la = s.la := by cases r <;> rfl
@[simp] theorem State.setByteReg_lb (r : ByteReg) (v : Byte) : (s.setByteReg r v).lb = s.lb := by cases r <;> rfl
@[simp] theorem State.setByteReg_lc (r : ByteReg) (v : Byte) : (s.setByteReg r v).lc = s.lc := by cases r <;> rfl
@[simp] theorem State.setByteReg_ld (r : ByteReg) (v : Byte) : (s.setByteReg r v).ld = s.ld := by cases r <;> rfl
@[simp] theorem State.setByteReg_ptr (r : ByteReg) (v : Byte) : (s.setByteReg r v).ptr = s.ptr := by cases r <;> rfl
@[simp] theorem State.setByteReg_pc (r : ByteReg) (v : Byte) : (s.setByteReg r v).pc = s.pc := by cases r <;> rfl
@[simp] theorem State.setByteReg_mem (r : ByteReg) (v : Byte) : (s.setByteReg r v).mem = s.mem := by cases r <;> rfl
@[simp] theorem State.setByteReg_memSize (r : ByteReg) (v : Byte) : (s.setByteReg r v).memSize = s.memSize := by cases r <;> rfl
@[simp] theorem State.setByteReg_out (r : ByteReg) (v : Byte) : (s.setByteReg r v).out = s.out := by cases r <;> rfl
@[simp] theorem State.setByteReg_run (r : ByteReg) (v : Byte) : (s.setByteReg r v).run = s.run := by cases r <;> rfl
@[simp] theorem State.setByteReg_cause (r : ByteReg) (v : Byte) : (s.setByteReg r v).cause = s.cause := by cases r <;> rfl
@[simp] theorem State.setByteReg_a (r : ByteReg) (v : Byte) : (s.setByteReg r v).a = if r = .a then v else s.a := by cases r <;> rfl
@[simp] theorem State.setByteReg_b (r : ByteReg) (v : Byte) : (s.setByteReg r v).b = if r = .b then v else s.b := by cases r <;> rfl
@[simp] theorem State.setByteReg_c (r : ByteReg) (v : Byte) : (s.setByteReg r v).c = if r = .c then v else s.c := by cases r <;> rfl
@[simp] theorem State.setByteReg_d (r : ByteReg) (v : Byte) : (s.setByteReg r v).d = if r = .d then v else s.d := by cases r <;> rfl
@[simp] theorem State.setByteReg_e (r : ByteReg) (v : Byte) : (s.setByteReg r v).e = if r = .e then v else s.e := by cases r <;> rfl
@[simp] theorem State.setByteReg_f (r : ByteReg) (v : Byte) : (s.setByteReg r v).f = if r = .f then v else s.f := by cases r <;> rfl

@[simp] theorem State.setWordReg_a (r : WordReg) (v : Word) : (s.setWordReg r v).a = s.a := by cases r <;> rfl
@[simp] theorem State.setWordReg_b (r : WordReg) (v : Word) : (s.setWordReg r v).b = s.b := by cases r <;> rfl
@[simp] theorem State.setWordReg_c (r : WordReg) (v : Word) : (s.setWordReg r v).c = s.c := by cases r <;> rfl
@[simp] theorem State.setWordReg_d (r : WordReg) (v : Word) : (s.setWordReg r v).d = s.d := by cases r <;> rfl
@[simp] theorem State.setWordReg_e (r : WordReg) (v : Word) : (s.setWordReg r v).e = s.e := by cases r <;> rfl
@[simp] theorem State.setWordReg_f (r : WordReg) (v : Word) : (s.setWordReg r v).f = s.f := by cases r <;> rfl
@[simp] theorem State.setWordReg_mem (r : WordReg) (v : Word) : (s.setWordReg r v).mem = s.mem := by cases r <;> rfl
@[simp] theorem State.setWordReg_memSize (r : WordReg) (v : Word) : (s.setWordReg r v).memSize = s.memSize := by cases r <;> rfl
@[simp] theorem State.setWordReg_out (r : WordReg) (v : Word) : (s.setWordReg r v).out = s.out := by cases r <;> rfl
@[simp] theorem State.setWordReg_run (r : WordReg) (v : Word) : (s.setWordReg r v).run = s.run := by cases r <;> rfl
@[simp] theorem State.setWordReg_cause (r : WordReg) (v : Word) : (s.setWordReg r v).cause = s.cause := by cases r <;> rfl
@[simp] theorem State.setWordReg_la (r : WordReg) (v : Word) : (s.setWordReg r v).la = if r = .la then v else s.la := by cases r <;> rfl
@[simp] theorem State.setWordReg_lb (r : WordReg) (v : Word) : (s.setWordReg r v).lb = if r = .lb then v else s.lb := by cases r <;> rfl
@[simp] theorem State.setWordReg_lc (r : WordReg) (v : Word) : (s.setWordReg r v).lc = if r = .lc then v else s.lc := by cases r <;> rfl
@[simp] theorem State.setWordReg_ld (r : WordReg) (v : Word) : (s.setWordReg r v).ld = if r = .ld then v else s.ld := by cases r <;> rfl
@[simp] theorem State.setWordReg_ptr (r : WordReg) (v : Word) : (s.setWordReg r v).ptr = if r = .ptr then v else s.ptr := by cases r <;> rfl
@[simp] theorem State.setWordReg_pc (r : WordReg) (v : Word) : (s.setWordReg r v).pc = if r = .pc then v else s.pc := by cases r <;> rfl

/-! Registers by name. -/

@[simp] theorem State.byteReg_advance (n : Nat) (r : ByteReg) : (s.advance n).byteReg r = s.byteReg r := by cases r <;> rfl
@[simp] theorem State.byteReg_storeByte (addr : Nat) (v : Byte) (r : ByteReg) : (s.storeByte addr v).byteReg r = s.byteReg r := by cases r <;> rfl
@[simp] theorem State.wordReg_storeByte (addr : Nat) (v : Byte) (r : WordReg) : (s.storeByte addr v).wordReg r = s.wordReg r := by cases r <;> rfl
@[simp] theorem State.byteReg_emit (v : Byte) (r : ByteReg) : (s.emit v).byteReg r = s.byteReg r := by cases r <;> rfl
@[simp] theorem State.wordReg_emit (v : Byte) (r : WordReg) : (s.emit v).wordReg r = s.wordReg r := by cases r <;> rfl
@[simp] theorem State.byteReg_halt (r : ByteReg) : (s.halt).byteReg r = s.byteReg r := by cases r <;> rfl
@[simp] theorem State.wordReg_halt (r : WordReg) : (s.halt).wordReg r = s.wordReg r := by cases r <;> rfl
@[simp] theorem State.byteReg_takeFault (k : Cause) (r : ByteReg) : (s.takeFault k).byteReg r = s.byteReg r := by cases r <;> rfl
@[simp] theorem State.wordReg_takeFault (k : Cause) (r : WordReg) : (s.takeFault k).wordReg r = s.wordReg r := by cases r <;> rfl

@[simp] theorem State.wordReg_advance (n : Nat) (r : WordReg) :
    (s.advance n).wordReg r = if r = .pc then s.pc + BitVec.ofNat 32 n else s.wordReg r := by cases r <;> rfl

@[simp] theorem State.byteReg_setByteReg (r r' : ByteReg) (v : Byte) :
    (s.setByteReg r v).byteReg r' = if r = r' then v else s.byteReg r' := by cases r <;> cases r' <;> rfl

@[simp] theorem State.wordReg_setByteReg (r : ByteReg) (v : Byte) (r' : WordReg) :
    (s.setByteReg r v).wordReg r' = s.wordReg r' := by cases r <;> cases r' <;> rfl

@[simp] theorem State.wordReg_setWordReg (r r' : WordReg) (v : Word) :
    (s.setWordReg r v).wordReg r' = if r = r' then v else s.wordReg r' := by cases r <;> cases r' <;> rfl

@[simp] theorem State.byteReg_setWordReg (r : WordReg) (v : Word) (r' : ByteReg) :
    (s.setWordReg r v).byteReg r' = s.byteReg r' := by cases r <;> cases r' <;> rfl

end Sys2Proof.Machine
end

