-- ==== Sys2Proof/Laws/Operands.lean ====
section
/-! SUPPORT. What each shared operation can do, said once. -/

namespace Sys2Proof.Machine

@[simp] theorem State.indirectAddress_advance (s : State) (n : Nat) :
    (s.advance n).indirectAddress = s.indirectAddress := rfl

/-- A byte read answers a register or the cell inside the image. -/
theorem getByte_ok {s : State} {sel : ByteSel} {v : Byte} (h : getByte s sel = .ok v) :
    (∃ r, sel = .reg r ∧ v = s.byteReg r) ∨
    (sel = .ind ∧ s.indirectAddress < s.memSize ∧ v = s.mem.read s.indirectAddress) := by
  unfold getByte at h
  split at h
  · next r => exact .inl ⟨r, rfl, by cases h; rfl⟩
  · split at h
    · next hlt => exact .inr ⟨rfl, hlt, by cases h; rfl⟩
    · cases h
  · cases h

/-- A byte write sets a register, or the cell inside the image. -/
theorem setByte_ok {s t : State} {sel : ByteSel} {v : Byte} (h : setByte s sel v = .ok t) :
    (∃ r, sel = .reg r ∧ t = s.setByteReg r v) ∨
    (sel = .ind ∧ s.indirectAddress < s.memSize ∧ t = s.storeByte s.indirectAddress v) := by
  unfold setByte at h
  split at h
  · next r => exact .inl ⟨r, rfl, by cases h; rfl⟩
  · split at h
    · next hlt => exact .inr ⟨rfl, hlt, by cases h; rfl⟩
    · cases h
  · cases h

/-- A word read answers a register. -/
theorem getWord_ok {s : State} {sel : WordSel} {v : Word} (h : getWord s sel = .ok v) :
    ∃ r, sel = .reg r ∧ v = s.wordReg r := by
  cases sel <;> cases h
  exact ⟨_, rfl, rfl⟩

/-- A word write sets a register. -/
theorem setWord_ok {s t : State} {sel : WordSel} {v : Word} (h : setWord s sel v = .ok t) :
    ∃ r, sel = .reg r ∧ t = s.setWordReg r v := by
  cases sel <;> cases h
  exact ⟨_, rfl, rfl⟩

/-- A byte move reads its source and then writes its destination. -/
theorem moveByteValue_ok {s t : State} {dst src : ByteSel} (h : moveByteValue s dst src = .ok t) :
    ∃ v, getByte s src = .ok v ∧ setByte s dst v = .ok t := by
  unfold moveByteValue at h
  split at h
  · next v hv => exact ⟨v, hv, h⟩
  · cases h

/-- A word move reads its source and then writes its destination. -/
theorem moveWordValue_ok {s t : State} {dst src : WordSel} (h : moveWordValue s dst src = .ok t) :
    ∃ v, getWord s src = .ok v ∧ setWord s dst v = .ok t := by
  unfold moveWordValue at h
  split at h
  · next v hv => exact ⟨v, hv, h⟩
  · cases h

/-- Phase 3 ends with the effect or with the fault taken. -/
theorem State.conclude_next {s t : State} {pc0 : Word} {op : Byte} {effect : Except AccessFault State}
    (h : s.conclude pc0 op effect = .next t) :
    effect = .ok t ∨ ∃ fault, effect = .error fault ∧ t = s.takeFault (fault.toCause pc0 op) := by
  unfold State.conclude at h
  split at h
  · exact .inl (by cases h; rfl)
  · next fault => exact .inr ⟨fault, rfl, by cases h; rfl⟩

end Sys2Proof.Machine
end

