-- ==== Sys2Proof/Laws/Exec.lean ====
section
/-! SUPPORT. What executing each instruction can do, said once: a case for each way it can end. -/

namespace Sys2Proof.Machine

/-- `ExecCase s i t`: executing `i` in `s` ends in `t`, by the case named. -/
inductive ExecCase (s : State) : Instr → State → Prop where
  | add : ExecCase s .add ((s.advance 1).setByteReg .a (s.a + s.b))
  | sub : ExecCase s .sub ((s.advance 1).setByteReg .a (s.a - s.b))
  | xor : ExecCase s .xor ((s.advance 1).setByteReg .a (s.a ^^^ s.b))
  | cmp : ExecCase s .cmp ((s.advance 1).setByteReg .f (compareFlag s.a s.b))
  | halt : ExecCase s .halt (s.advance 1).halt
  | out : ExecCase s .out ((s.advance 1).emit s.a)
  | aptr (v : Byte) : ExecCase s (.aptr v) ((s.advance 2).setWordReg .ptr (s.ptr + v.zeroExtend 32))
  | jezTaken (w : Word) : s.f = 0 → ExecCase s (.jez w) ((s.advance 5).setWordReg .pc w)
  | jezPassed (w : Word) : s.f ≠ 0 → ExecCase s (.jez w) (s.advance 5)
  | jnzTaken (w : Word) : s.f ≠ 0 → ExecCase s (.jnz w) ((s.advance 5).setWordReg .pc w)
  | jnzPassed (w : Word) : s.f = 0 → ExecCase s (.jnz w) (s.advance 5)
  | mvReg (r : ByteReg) (src : ByteSel) (v : Byte) : getByte (s.advance 1) src = .ok v →
      ExecCase s (.mv (.reg r) src) ((s.advance 1).setByteReg r v)
  | mvStore (src : ByteSel) (v : Byte) : getByte (s.advance 1) src = .ok v → s.indirectAddress < s.memSize →
      ExecCase s (.mv .ind src) ((s.advance 1).storeByte s.indirectAddress v)
  | mvFault (dst src : ByteSel) (k : AccessFault) : moveByteValue (s.advance 1) dst src = .error k →
      ExecCase s (.mv dst src) ((s.advance 1).takeFault (k.toCause s.pc (opByte (.mv dst src))))
  | mviReg (r : ByteReg) (v : Byte) : ExecCase s (.mvi (.reg r) v) ((s.advance 2).setByteReg r v)
  | mviStore (v : Byte) : s.indirectAddress < s.memSize →
      ExecCase s (.mvi .ind v) ((s.advance 2).storeByte s.indirectAddress v)
  | mviFault (dst : ByteSel) (v : Byte) (k : AccessFault) : setByte (s.advance 2) dst v = .error k →
      ExecCase s (.mvi dst v) ((s.advance 2).takeFault (k.toCause s.pc (opByte (.mvi dst v))))
  | mv32 (r q : WordReg) :
      ExecCase s (.mv32 (.reg r) (.reg q)) ((s.advance 1).setWordReg r ((s.advance 1).wordReg q))
  | mv32Fault (dst src : WordSel) (k : AccessFault) : moveWordValue (s.advance 1) dst src = .error k →
      ExecCase s (.mv32 dst src) ((s.advance 1).takeFault (k.toCause s.pc (opByte (.mv32 dst src))))
  | mvi32 (r : WordReg) (w : Word) : ExecCase s (.mvi32 (.reg r) w) ((s.advance 5).setWordReg r w)
  | mvi32Fault (dst : WordSel) (w : Word) (k : AccessFault) : setWord (s.advance 5) dst w = .error k →
      ExecCase s (.mvi32 dst w) ((s.advance 5).takeFault (k.toCause s.pc (opByte (.mvi32 dst w))))

theorem flagIsZero_iff (f : Byte) : flagIsZero f = true ↔ f = 0 := beq_iff_eq

theorem exec_jez (w : Word) (s : State) :
    exec (.jez w) s = if s.f = 0 then .next ((s.advance 5).setWordReg .pc w) else .next (s.advance 5) := by
  simp only [← flagIsZero_iff]
  cases h : flagIsZero s.f <;> simp [exec, execJez, branch, h, Instr.length, Instr.form, Form.length]

theorem exec_jnz (w : Word) (s : State) :
    exec (.jnz w) s = if s.f = 0 then .next (s.advance 5) else .next ((s.advance 5).setWordReg .pc w) := by
  simp only [← flagIsZero_iff]
  cases h : flagIsZero s.f <;> simp [exec, execJnz, branch, h, Instr.length, Instr.form, Form.length]

/-- Every next state of every instruction is one of the cases. -/
theorem exec_cases {i : Instr} {s t : State} (h : exec i s = .next t) : ExecCase s i t := by
  cases i with
  | add => cases h; exact .add
  | sub => cases h; exact .sub
  | xor => cases h; exact .xor
  | cmp => cases h; exact .cmp
  | halt => cases h; exact .halt
  | out => cases h; exact .out
  | aptr v => cases h; exact .aptr v
  | jez w =>
    rw [exec_jez] at h
    split at h <;> cases h
    · next hf => exact .jezTaken w hf
    · next hf => exact .jezPassed w hf
  | jnz w =>
    rw [exec_jnz] at h
    split at h <;> cases h
    · next hf => exact .jnzPassed w hf
    · next hf => exact .jnzTaken w hf
  | mv dst src =>
    rcases State.conclude_next h with hm | ⟨k, hk, rfl⟩
    · obtain ⟨v, hv, hset⟩ := moveByteValue_ok hm
      rcases setByte_ok hset with ⟨r, rfl, rfl⟩ | ⟨rfl, hlt, rfl⟩
      · exact .mvReg r src v hv
      · exact .mvStore src v hv hlt
    · exact .mvFault dst src k hk
  | mvi dst v =>
    rcases State.conclude_next h with hset | ⟨k, hk, rfl⟩
    · rcases setByte_ok hset with ⟨r, rfl, rfl⟩ | ⟨rfl, hlt, rfl⟩
      · exact .mviReg r v
      · exact .mviStore v hlt
    · exact .mviFault dst v k hk
  | mv32 dst src =>
    rcases State.conclude_next h with hm | ⟨k, hk, rfl⟩
    · obtain ⟨v, hv, hset⟩ := moveWordValue_ok hm
      obtain ⟨r, rfl, rfl⟩ := setWord_ok hset
      obtain ⟨q, rfl, rfl⟩ := getWord_ok hv
      exact .mv32 r q
    · exact .mv32Fault dst src k hk
  | mvi32 dst w =>
    rcases State.conclude_next h with hset | ⟨k, hk, rfl⟩
    · obtain ⟨r, rfl, rfl⟩ := setWord_ok hset
      exact .mvi32 r w
    · exact .mvi32Fault dst w k hk

/-- Each case is what executing the instruction answers. -/
theorem exec_of_case {i : Instr} {s t : State} (h : ExecCase s i t) : exec i s = .next t := by
  cases h with
  | jezTaken w hf => rw [exec_jez, if_pos hf]
  | jezPassed w hf => rw [exec_jez, if_neg hf]
  | jnzTaken w hf => rw [exec_jnz, if_neg hf]
  | jnzPassed w hf => rw [exec_jnz, if_pos hf]
  | mvReg r src v hv =>
    simp [exec, execMv, moveByteValue, setByte, State.conclude, Instr.length, Instr.form, Form.length, hv]
  | mvStore src v hv hlt =>
    simp [exec, execMv, moveByteValue, setByte, State.conclude, Instr.length, Instr.form, Form.length, hv, hlt]
  | mvFault dst src k hk =>
    simp [exec, execMv, State.conclude, Instr.length, Instr.form, Form.length, hk]
  | mviStore v hlt =>
    simp [exec, execMvi, setByte, State.conclude, Instr.length, Instr.form, Form.length, hlt]
  | mviFault dst v k hk =>
    simp [exec, execMvi, State.conclude, Instr.length, Instr.form, Form.length, hk]
  | mv32Fault dst src k hk =>
    simp [exec, execMv32, State.conclude, Instr.length, Instr.form, Form.length, hk]
  | mvi32Fault dst w k hk =>
    simp [exec, execMvi32, State.conclude, Instr.length, Instr.form, Form.length, hk]
  | _ => rfl

end Sys2Proof.Machine
end

