-- ==== Sys2Proof/Laws/Memory.lean ====
section
/-! SUPPORT. Read after write, and that every memory operation keeps the canonical form and the image's bounds. -/

namespace Sys2Proof.Machine

@[simp] theorem Memory.read_nil (addr : Nat) : Memory.read [] addr = Config.unlistedByte := rfl

theorem Memory.read_cons (k : Nat) (v : Byte) (rest : Memory) (addr : Nat) :
    Memory.read ((k, v) :: rest) addr = if k = addr then v else Memory.read rest addr := rfl

theorem Memory.read_erase (m : Memory) (addr x : Nat) :
    (m.erase addr).read x = if x = addr then Config.unlistedByte else m.read x := by
  induction m with
  | nil => simp [Memory.erase]
  | cons cell rest ih =>
    obtain ⟨k, v⟩ := cell
    simp only [Memory.erase] at ih
    by_cases hk : k = addr
    · subst hk
      by_cases hx : x = k
      · subst hx; simpa [Memory.erase, List.filter_cons] using ih
      · have : ¬ k = x := fun h => hx h.symm
        simpa [Memory.erase, List.filter_cons, Memory.read_cons, hx, this] using ih
    · by_cases hx : k = x
      · subst hx; simp [Memory.erase, Memory.read_cons, hk]
      · simp [Memory.erase, Memory.read_cons, hk, hx, ih]

/-- Where an address is not listed, inserting it sets its byte and no other. -/
theorem Memory.read_insert (m : Memory) (addr : Nat) (v : Byte) (x : Nat) (h : ∀ cell ∈ m, cell.1 ≠ addr) :
    (m.insert addr v).read x = if x = addr then v else m.read x := by
  induction m with
  | nil => simp [Memory.insert, Memory.read_cons, eq_comm]
  | cons cell rest ih =>
    obtain ⟨k, y⟩ := cell
    have hk : k ≠ addr := h (k, y) (by simp)
    have hrest := ih fun cell hc => h cell (by simp [hc])
    simp only [Memory.insert]
    split
    · simp [Memory.read_cons, eq_comm]
    · simp only [Memory.read_cons, hrest]
      by_cases hx : k = x
      · subst hx; simp [hk]
      · simp [hx]

theorem Memory.erase_ne (m : Memory) (addr : Nat) : ∀ cell ∈ m.erase addr, cell.1 ≠ addr := by
  intro cell hc
  have := (List.mem_filter.mp hc).2
  simpa using this

/-- A write sets the byte at its address and leaves every other byte alone, whatever list it is given. -/
@[simp] theorem Memory.read_write (m : Memory) (addr : Nat) (v : Byte) (x : Nat) :
    (m.write addr v).read x = if x = addr then v else m.read x := by
  unfold Memory.write
  split
  · next hv => rw [Memory.read_erase, hv]
  · rw [Memory.read_insert _ _ _ _ (m.erase_ne addr), Memory.read_erase]
    split <;> rfl

theorem Memory.wfFrom_mono {lo lo' : Nat} (h : lo' ≤ lo) {m : Memory} (hm : Memory.wfFrom lo m = true) :
    Memory.wfFrom lo' m = true := by
  cases m with
  | nil => rfl
  | cons cell rest =>
    simp only [Memory.wfFrom, Bool.and_eq_true, decide_eq_true_eq] at hm ⊢
    exact ⟨⟨h.trans hm.1.1, hm.1.2⟩, hm.2⟩

theorem Memory.wfFrom_erase (addr : Nat) {lo : Nat} {m : Memory} (hm : Memory.wfFrom lo m = true) :
    Memory.wfFrom lo (m.erase addr) = true := by
  induction m generalizing lo with
  | nil => rfl
  | cons cell rest ih =>
    simp only [Memory.wfFrom, Bool.and_eq_true, decide_eq_true_eq] at hm
    have hrest := ih hm.2
    simp only [Memory.erase] at hrest ⊢
    rw [List.filter_cons]
    split
    · simp only [Memory.wfFrom, Bool.and_eq_true, decide_eq_true_eq]
      exact ⟨hm.1, hrest⟩
    · exact Memory.wfFrom_mono (by omega) hrest

theorem Memory.wfFrom_insert {addr : Nat} {v : Byte} (hv : v ≠ Config.unlistedByte) {lo : Nat} {m : Memory}
    (hlo : lo ≤ addr) (hne : ∀ cell ∈ m, cell.1 ≠ addr) (hm : Memory.wfFrom lo m = true) :
    Memory.wfFrom lo (m.insert addr v) = true := by
  induction m generalizing lo with
  | nil => simp [Memory.insert, Memory.wfFrom, hlo, hv]
  | cons cell rest ih =>
    obtain ⟨k, y⟩ := cell
    have hk : k ≠ addr := hne (k, y) (by simp)
    simp only [Memory.wfFrom, Bool.and_eq_true, decide_eq_true_eq] at hm
    simp only [Memory.insert]
    split
    · simp only [Memory.wfFrom, Bool.and_eq_true, decide_eq_true_eq]
      exact ⟨⟨hlo, by simpa using hv⟩, ⟨by omega, hm.1.2⟩, hm.2⟩
    · simp only [Memory.wfFrom, Bool.and_eq_true, decide_eq_true_eq]
      exact ⟨hm.1, ih (by omega) (fun cell hc => hne cell (by simp [hc])) hm.2⟩

/-- A write keeps the canonical form. -/
theorem Memory.wf_write {m : Memory} (hm : m.wf = true) (addr : Nat) (v : Byte) : (m.write addr v).wf = true := by
  unfold Memory.write
  split
  · exact Memory.wfFrom_erase addr hm
  · next hv => exact Memory.wfFrom_insert hv (Nat.zero_le _) (m.erase_ne addr) (Memory.wfFrom_erase addr hm)

theorem Memory.mem_insert {m : Memory} {addr : Nat} {v : Byte} {cell : Host.Cell} (h : cell ∈ m.insert addr v) :
    cell = (addr, v) ∨ cell ∈ m := by
  induction m with
  | nil => simpa [Memory.insert] using h
  | cons head rest ih =>
    obtain ⟨k, y⟩ := head
    simp only [Memory.insert] at h
    split at h
    · simpa using h
    · rcases List.mem_cons.mp h with h | h
      · exact .inr (by simp [h])
      · exact (ih h).imp_right fun h => by simp [h]

/-- A write inside the image lists no address outside it. -/
theorem Memory.within_write {m : Memory} {size addr : Nat} (v : Byte) (hm : m.within size = true) (ha : addr < size) :
    (m.write addr v).within size = true := by
  simp only [Memory.within, List.all_eq_true, decide_eq_true_eq] at hm ⊢
  have herase : ∀ cell ∈ m.erase addr, cell.1 < size := fun cell hc => hm cell (List.mem_of_mem_filter hc)
  unfold Memory.write
  split
  · exact herase
  · intro cell hc
    rcases Memory.mem_insert hc with rfl | hc
    · exact ha
    · exact herase cell hc

/-- Writing consecutive bytes keeps the canonical form. -/
theorem Memory.wf_writeBytes {m : Memory} (hm : m.wf = true) (addr : Nat) (bytes : List Byte) :
    (m.writeBytes addr bytes).wf = true := by
  induction bytes generalizing m addr with
  | nil => exact hm
  | cons v rest ih => exact ih (Memory.wf_write hm addr v) (addr + 1)

theorem Memory.wfFrom_ofImageAt (addr : Nat) (image : List Byte) :
    Memory.wfFrom addr (Memory.ofImageAt addr image) = true := by
  induction image generalizing addr with
  | nil => rfl
  | cons v rest ih =>
    simp only [Memory.ofImageAt]
    split
    · exact Memory.wfFrom_mono (Nat.le_succ addr) (ih (addr + 1))
    · next hv =>
      simp only [Memory.wfFrom, Bool.and_eq_true, decide_eq_true_eq]
      exact ⟨⟨le_refl _, by simpa using hv⟩, ih (addr + 1)⟩

/-- The list made from an image is canonical. -/
theorem Memory.wf_ofImage (image : List Byte) : (Memory.ofImageAt 0 image).wf = true :=
  Memory.wfFrom_ofImageAt 0 image

/-- The canonical list of reset's memory. -/
theorem State.reset_mem_wf : State.reset.mem.wf = true := rfl

/-- Below every listed address nothing is listed. -/
theorem Memory.read_of_wfFrom {lo addr : Nat} {m : Memory} (hm : Memory.wfFrom lo m = true) (h : addr < lo) :
    m.read addr = Config.unlistedByte := by
  induction m generalizing lo with
  | nil => rfl
  | cons cell rest ih =>
    simp only [Memory.wfFrom, Bool.and_eq_true, decide_eq_true_eq] at hm
    rw [Memory.read_cons, if_neg (by omega), ih hm.2 (by omega)]

/-- Canonical memories with equal bytes are equal lists. -/
theorem Memory.ext_of_wfFrom {lo : Nat} {m m' : Memory} (hm : Memory.wfFrom lo m = true)
    (hm' : Memory.wfFrom lo m' = true) (h : ∀ x, m.read x = m'.read x) : m = m' := by
  induction m generalizing lo m' with
  | nil =>
    cases m' with
    | nil => rfl
    | cons cell rest =>
      obtain ⟨k, v⟩ := cell
      simp only [Memory.wfFrom, Bool.and_eq_true, bne_iff_ne] at hm'
      exact absurd ((h k).trans (by simp [Memory.read_cons])).symm hm'.1.2
  | cons cell rest ih =>
    obtain ⟨k, v⟩ := cell
    simp only [Memory.wfFrom, Bool.and_eq_true, decide_eq_true_eq, bne_iff_ne] at hm
    cases m' with
    | nil => exact absurd ((h k).symm.trans (by simp [Memory.read_cons])).symm hm.1.2
    | cons cell' rest' =>
      obtain ⟨k', v'⟩ := cell'
      simp only [Memory.wfFrom, Bool.and_eq_true, decide_eq_true_eq, bne_iff_ne] at hm'
      have hk : k = k' := by
        rcases Nat.lt_trichotomy k k' with hlt | heq | hgt
        · have := h k
          rw [Memory.read_cons, if_pos rfl, Memory.read_cons, if_neg (by omega),
            Memory.read_of_wfFrom hm'.2 (by omega)] at this
          exact absurd this hm.1.2
        · exact heq
        · have := h k'
          rw [Memory.read_cons, if_neg (by omega), Memory.read_of_wfFrom hm.2 (by omega), Memory.read_cons,
            if_pos rfl] at this
          exact absurd this.symm hm'.1.2
      subst hk
      have hv : v = v' := by simpa [Memory.read_cons] using h k
      subst hv
      have hrest : rest = rest' := by
        refine ih hm.2 hm'.2 fun x => ?_
        by_cases hx : k = x
        · subst hx
          rw [Memory.read_of_wfFrom hm.2 (by omega), Memory.read_of_wfFrom hm'.2 (by omega)]
        · simpa [Memory.read_cons, hx] using h x
      rw [hrest]

theorem Memory.window_zero (m : Memory) (size addr : Nat) : m.window size addr 0 = [] := rfl

theorem Memory.window_succ (m : Memory) (size addr n : Nat) :
    m.window size addr (n + 1) = if addr < size then m.read addr :: m.window size (addr + 1) n else [] := rfl

end Sys2Proof.Machine
end

