-- ==== Sys2Proof/Laws/PerInstr.lean ====
section
/-! SUPPORT. Facts about each instruction as syntax, one lemma per constructor. -/

namespace Sys2Proof.Laws.EncodingLength

/-- An encoding has the length that the opcode table gives the form (spec/30_encoding.md R54, R60). -/
def Statement (i : Instr) : Prop := (encode i).length = i.length

theorem add : Statement .add := rfl
theorem aptr (imm8 : Byte) : Statement (.aptr imm8) := rfl
theorem cmp : Statement .cmp := rfl
theorem halt : Statement .halt := rfl
theorem jez (imm32 : Word) : Statement (.jez imm32) := rfl
theorem jnz (imm32 : Word) : Statement (.jnz imm32) := rfl
theorem mvi (dst : ByteSel) (imm8 : Byte) : Statement (.mvi dst imm8) := rfl
theorem mvi32 (dst : WordSel) (imm32 : Word) : Statement (.mvi32 dst imm32) := rfl
theorem mv (dst src : ByteSel) : Statement (.mv dst src) := rfl
theorem mv32 (dst src : WordSel) : Statement (.mv32 dst src) := rfl
theorem out : Statement .out := rfl
theorem sub : Statement .sub := rfl
theorem xor : Statement .xor := rfl

end Sys2Proof.Laws.EncodingLength
end

