-- ==== Sys2Proof/Laws/Step.lean ====
section
/-! SUPPORT. What fetching and stepping can do, said once. -/

namespace Sys2Proof.Machine

/-- An instruction is fetched exactly when the bytes at `pc` decode to it. -/
theorem fetch_ok {s : State} {i : Instr} : fetch s = .ok i ↔ ∃ rest, decode s.fetchBytes = .ok (i, rest) := by
  unfold fetch
  constructor
  · intro h
    split at h
    · next j rest hd => cases h; exact ⟨rest, hd⟩
    · cases h
  · rintro ⟨rest, hd⟩
    rw [hd]

/-- A fetch faults exactly when the bytes at `pc` do not decode. -/
theorem fetch_error {s : State} {cause : Cause} :
    fetch s = .error cause ↔ ∃ err, decode s.fetchBytes = .error err ∧ cause = DecodeError.toCause s.pc err := by
  unfold fetch
  constructor
  · intro h
    split at h
    · cases h
    · next err hd => cases h; exact ⟨err, hd, rfl⟩
  · rintro ⟨err, hd, rfl⟩
    rw [hd]

/-- A step runs the instruction fetched, takes the fetch's fault, or finds the run ended. -/
theorem step_cases {s t : State} (h : step s = .next t) :
    (s.run = .running ∧ ∃ i, fetch s = .ok i ∧ exec i s = .next t) ∨
    (s.run = .running ∧ ∃ cause, fetch s = .error cause ∧ t = s.takeFault cause) ∨
    (s.run ≠ .running ∧ t = s) := by
  unfold step at h
  split at h
  · next hr =>
    unfold runStep at h
    split at h
    · next i hi => exact .inl ⟨hr, i, hi, h⟩
    · next cause hc => exact .inr (.inl ⟨hr, cause, hc, by cases h; rfl⟩)
  · next hr => exact .inr (.inr ⟨by simp [hr], by cases h; rfl⟩)
  · next hr => exact .inr (.inr ⟨by simp [hr], by cases h; rfl⟩)

theorem step_of_fetch_ok {s : State} {i : Instr} (hr : s.run = .running) (h : fetch s = .ok i) :
    step s = exec i s := by
  simp [step, hr, runStep, h]

theorem step_of_fetch_error {s : State} {cause : Cause} (hr : s.run = .running) (h : fetch s = .error cause) :
    step s = .next (s.takeFault cause) := by
  simp [step, hr, runStep, h]

end Sys2Proof.Machine
end

