-- ==== Sys2Proof/Machine/Listing.lean ====
section
/-! DEFINITION. The spelling of an instruction in the spec's listings (spec/30_encoding.md R61, decision D20). It is
notation only: nothing of the machine reads it. -/

namespace Sys2Proof.Machine

/-- `breg` of R61; selector 0 cannot be written. -/
def byteOperand : ByteSel → Option String
  | .reg .a => some "a"
  | .reg .b => some "b"
  | .reg .c => some "c"
  | .reg .d => some "d"
  | .reg .e => some "e"
  | .reg .f => some "f"
  | .ind => some "(ptr+c)"
  | .undef => none

/-- `wreg` of R61; selectors 0 and 7 cannot be written. -/
def wordOperand : WordSel → Option String
  | .reg .la => some "la"
  | .reg .lb => some "lb"
  | .reg .lc => some "lc"
  | .reg .ld => some "ld"
  | .reg .ptr => some "ptr"
  | .reg .pc => some "pc"
  | .undef0 => none
  | .undef7 => none

/-- Mnemonic, destination and source, where both can be written. -/
def twoOperands (mnemonic : String) (dst src : Option String) : Option String :=
  match dst, src with
  | some d, some s => some (mnemonic ++ " " ++ d ++ "," ++ s)
  | _, _ => none

/-- An instruction as R61 writes it, numbers in decimal; none where R61's grammar cannot write it. -/
def listing : Instr → Option String
  | .add => some "ADD"
  | .aptr imm8 => some ("APTR " ++ Nat.repr imm8.toNat)
  | .cmp => some "CMP"
  | .halt => some "HALT"
  | .jez imm32 => some ("JEZ " ++ Nat.repr imm32.toNat)
  | .jnz imm32 => some ("JNZ " ++ Nat.repr imm32.toNat)
  | .mvi dst imm8 => twoOperands "MVI" (byteOperand dst) (some (Nat.repr imm8.toNat))
  | .mvi32 dst imm32 => twoOperands "MVI32" (wordOperand dst) (some (Nat.repr imm32.toNat))
  | .mv dst src => twoOperands "MV" (byteOperand dst) (byteOperand src)
  | .mv32 dst src => twoOperands "MV32" (wordOperand dst) (wordOperand src)
  | .out => some "OUT"
  | .sub => some "SUB"
  | .xor => some "XOR"

end Sys2Proof.Machine
end

