-- ==== Sys2Proof/Tests/Slice0.lean ====
section
/-! SUPPORT. Tests: expected results are from spec/95_test_vectors.md (T-…), from spec/30_encoding.md, or worked out by hand
from the rule named; then, for each statement with hypotheses, a state that meets them. -/

namespace Sys2Proof.Tests

open Sys2Proof.Machine

/-- A core just constructed from an image. -/
def coreOf (image : List Byte) : State := (State.construct image).getD State.reset

/-- The state after one step. -/
def after (s : State) : Option State :=
  match step s with
  | .next t => some t
  | .fault _ => none
  | .refused _ => none

/-! Well-formedness: one ill-formed term for each check. -/

theorem test_wf_mv_source_zero : (Instr.mv (.reg .a) .undef).wellFormed = false := by decide
theorem test_wf_mv32_source_zero : (Instr.mv32 (.reg .la) .undef0).wellFormed = false := by decide
theorem test_wf_undefined_destination : (Instr.mv .undef (.reg .a)).wellFormed = true := by decide

/-! Decoding: bytes written out from R54's patterns, one for each form. -/

theorem test_decode_add : decode [0b11000010] = .ok (.add, []) := by rfl
theorem test_decode_aptr : decode [0b11100001, 0xFF] = .ok (.aptr 0xFF, []) := by rfl
theorem test_decode_cmp : decode [0b11000001] = .ok (.cmp, []) := by rfl
theorem test_decode_halt : decode [0b00000001, 0xFF] = .ok (.halt, [0xFF]) := by rfl
theorem test_decode_jez : decode [0b00100001, 0x78, 0x56, 0x34, 0x12] = .ok (.jez 0x12345678, []) := by rfl
theorem test_decode_jnz : decode [0b00100010, 0x1D, 0, 0, 0] = .ok (.jnz 0x1D, []) := by rfl
theorem test_decode_mvi : decode [0b01110000, 0xFF] = .ok (.mvi (.reg .f) 0xFF, []) := by rfl
theorem test_decode_mvi32 : decode [0b10101000, 0x4D, 0, 0, 0] = .ok (.mvi32 (.reg .ptr) 0x4D, []) := by rfl
theorem test_decode_mv : decode [0b01111001] = .ok (.mv .ind (.reg .a), []) := by rfl
theorem test_decode_mv32 : decode [0b10001110] = .ok (.mv32 (.reg .la) (.reg .pc), []) := by rfl
theorem test_decode_out : decode [0b00000010] = .ok (.out, []) := by rfl
theorem test_decode_sub : decode [0b11000011] = .ok (.sub, []) := by rfl
theorem test_decode_xor : decode [0b11000100] = .ok (.xor, []) := by rfl
theorem test_decode_priority : decode [0x40, 0x12] = .ok (.mvi .undef 0x12, []) := by rfl
theorem test_decode_illegal : decode [0xFF] = .error (.noMatch 0xFF) := by rfl
theorem test_decode_truncated : decode [0x21, 0, 0, 0] = .error (.truncated 0x21) := by rfl
theorem test_decode_empty : decode [] = .error .noBytes := by rfl
theorem test_table_word : decodeTableWord 40 0x12345678A8 = some (.mvi32 (.reg .ptr) 0x12345678) := by decide
theorem test_table_word_short : decodeTableWord 8 0x21 = some (.jez 0) := by decide

/-! Instructions, one step each. -/

theorem test_add_wraps :
    (after { coreOf [0xC2] with a := 0xC8, b := 0x64 }).map (fun t => (t.a, t.b, t.f, t.pc)) =
      some (0x2C, 0x64, 0, 1) := by decide  -- T-A2
theorem test_sub_wraps :
    (after { coreOf [0xC3] with a := 0x00, b := 0x01 }).map (fun t => (t.a, t.b, t.pc)) =
      some (0xFF, 0x01, 1) := by decide  -- T-A7
theorem test_sub_order :
    (after { coreOf [0xC3] with a := 0x31, b := 0x0C }).map (fun t => t.a) = some 0x25 := by decide  -- T-A6
theorem test_xor :
    (after { coreOf [0xC4] with a := 0x65, b := 0x09 }).map (fun t => (t.a, t.b)) = some (0x6C, 0x09) := by
  decide  -- T-A12
theorem test_cmp_equal :
    (after { coreOf [0xC1] with a := 2, b := 2, f := 0x77 }).map (fun t => t.f) = some 0 := by decide  -- T-A17
theorem test_cmp_unequal :
    (after { coreOf [0xC1] with a := 1, b := 2 }).map (fun t => (t.a, t.f)) = some (1, 1) := by decide  -- T-A18
theorem test_halt_at_end_of_memory :
    (after (coreOf [0x01])).map (fun t => (t.run, t.pc, t.out)) = some (.halted, 1, []) := by decide  -- T-S1
theorem test_out :
    (after { coreOf [0x02] with a := 0x48, out := [0x01] }).map (fun t => (t.out, t.pc)) =
      some ([0x01, 0x48], 1) := by decide  -- R86, appended at the end
theorem test_aptr_wraps :
    (after { coreOf [0xE1, 0xFF] with ptr := 0xFFFFFFFF }).map (fun t => (t.ptr, t.pc)) = some (0xFE, 2) := by
  decide  -- T-B5
theorem test_aptr_truncated :
    (after (coreOf [0xE1])).map (fun t => (t.run, t.cause, t.pc)) =
      some (.faulted, some (.truncated 0 0xE1), 0) := by decide  -- T-B6
theorem test_jez_taken :
    (after { coreOf [0x21, 0x78, 0x56, 0x34, 0x12] with f := 0 }).map (fun t => (t.pc, t.run)) =
      some (0x12345678, .running) := by decide  -- T-B13
theorem test_jez_passed :
    (after { coreOf [0x21, 0x3A, 0, 0, 0] with f := 0xFF }).map (fun t => t.pc) = some 5 := by decide  -- T-B9
theorem test_jnz_taken :
    (after { coreOf [0x22, 0x1D, 0, 0, 0] with f := 0x80 }).map (fun t => t.pc) = some 0x1D := by decide  -- T-B11
theorem test_jnz_passed :
    (after { coreOf [0x22, 0x1D, 0, 0, 0] with f := 0 }).map (fun t => t.pc) = some 5 := by decide  -- T-B12
theorem test_mv_old_index :
    (after { coreOf [0x5F, 0x00, 0x2A] with ptr := 1, c := 1 }).map (fun t => (t.c, t.pc)) = some (0x2A, 1) := by
  decide  -- T-M6
theorem test_mv_no_wrap :
    (after { coreOf [0x4F, 0x99] with ptr := 0xFFFFFFFF, c := 1 }).map (fun t => (t.cause, t.pc, t.a)) =
      some (some (.indirect 0 0x4F 0x100000000), 1, 0) := by decide  -- T-M12
theorem test_mvi_stores :
    (after { coreOf [0x78, 0xAB, 0x00] with ptr := 2 }).map (fun t => (t.mem.read 2, t.mem.read 0, t.pc)) =
      some (0xAB, 0x78, 2) := by decide  -- T-M22
theorem test_mvi_undefined :
    (after (coreOf [0x40, 0x12])).map (fun t => (t.run, t.cause, t.pc)) =
      some (.faulted, some (.byteSpace 0 0x40 0), 2) := by decide  -- T-M25
theorem test_mv32_reads_advanced_pc :
    (after { coreOf [0x01, 0x01, 0x8E] with pc := 2 }).map (fun t => (t.la, t.pc)) = some (3, 3) := by
  decide  -- T-W11
theorem test_mv32_source_fault_first :
    (after (coreOf [0x87])).map (fun t => (t.run, t.cause)) = some (.faulted, some (.wordSpace 0 0x87 7)) := by
  decide  -- T-W17
theorem test_mvi32_little_endian :
    (after (coreOf [0x88, 0x78, 0x56, 0x34, 0x12])).map (fun t => (t.la, t.pc)) = some (0x12345678, 5) := by
  decide  -- T-W1
theorem test_mvi32_jump :
    (after (coreOf [0xB0, 0x29, 0, 0, 0])).map (fun t => t.pc) = some 0x29 := by decide  -- T-W3

/-! The step, construction, and placing. -/

theorem test_no_match :
    (after (coreOf [0x00])).map (fun t => (t.run, t.cause, t.pc)) =
      some (.faulted, some (.noMatch 0 0x00), 0) := by decide  -- T-F2
theorem test_fetch_outside :
    (after { coreOf [0x01] with pc := 0xFFFFFFFF }).map (fun t => (t.run, t.cause, t.pc)) =
      some (.faulted, some (.fetch 0xFFFFFFFF), 0xFFFFFFFF) := by decide  -- T-F8
theorem test_length_before_selector :
    (after (coreOf [0x40])).map (fun t => (t.cause, t.pc)) = some (some (.truncated 0 0x40), 0) := by
  decide  -- T-M27
theorem test_ended_core : after { coreOf [0x02] with run := .halted } = some { coreOf [0x02] with run := .halted } := by
  decide  -- R70
theorem test_no_empty_image : State.construct [] = none := by decide  -- R121
theorem test_cause_code : (Cause.fetch 0).code = 5 ∧ (Cause.truncated 0 0).faultClass = .decode := by decide  -- R101
theorem test_host_result : (coreOf [0x01]).hostResult = none := by decide  -- R128
theorem test_placed_word_runs : (after (State.reset.withFetchWord 16 0x0948)).map (fun t => (t.a, t.pc)) = some (9, 2) := by
  decide  -- 48 09 is MVI a,9 (R63)
theorem test_memory_write_of_zero : Memory.write [(3, 1), (5, 2)] 3 0 = [(5, 2)] := by decide  -- log 3
theorem test_memory_write_sorted : Memory.write [(3, 1), (5, 2)] 4 7 = [(3, 1), (4, 7), (5, 2)] := by decide  -- log 3
theorem test_listing : listing (.mv (.reg .a) .ind) = some "MV a,(ptr+c)" := by decide  -- R61

/-! Witnesses: each statement's hypotheses, or each of its clauses', met together. -/

theorem test_witness_StepKeepsInvariant : State.reset.Inv ∧ ∃ t, step State.reset = .next t := ⟨by decide, _, rfl⟩
theorem test_witness_ConstructionLoadsImage :
    (1 ≤ [(0x01 : Byte)].length ∧ [(0x01 : Byte)].length ≤ 2 ^ 32 - 1) ∧
    (1 ≤ (List.replicate (2 ^ 32 - 1) (0 : Byte)).length ∧ (List.replicate (2 ^ 32 - 1) (0 : Byte)).length ≤ 2 ^ 32 - 1) ∧
    ([] : List Byte).length = 0 ∧ 2 ^ 32 - 1 < (List.replicate (2 ^ 32) (0 : Byte)).length := by
  simp only [List.length_replicate]; decide
theorem test_witness_MemorySizeIsSetOnceAtConstruction :
    State.construct [0x01] = some (coreOf [0x01]) ∧ ∃ t, Host.Core.run core 1 (coreOf [0x01]) = .next t :=
  ⟨rfl, _, rfl⟩
theorem test_witness_DecodeOfEncodeIsIdentity : (Instr.mv .undef .ind).wellFormed = true := by decide
theorem test_witness_DecodedBytesAreTheEncoding : decode [0x40, 0x12, 0xFF] = .ok (.mvi .undef 0x12, [0xFF]) := by rfl
theorem test_witness_IllegalFirstBytesFault :
    (coreOf [0x00]).run = .running ∧ (coreOf [0x00]).pc.toNat < (coreOf [0x00]).memSize ∧
      illegalFirstByte ((coreOf [0x00]).mem.read 0) = true ∧ illegalFirstByte 0xE1 = false ∧
      illegalFirstByte 0xE2 = true := by decide
theorem test_witness_SelectorFaultBytesFault :
    selectorFaultByte 0x47 = true ∧ (coreOf [0x47]).run = .running ∧
      (coreOf [0x47]).pc.toNat + Form.mv.length ≤ (coreOf [0x47]).memSize ∧ (coreOf [0x47]).mem.read 0 = 0x47 ∧
      (coreOf [0x47]).ptr.toNat + (coreOf [0x47]).c.toNat < (coreOf [0x47]).memSize ∧
      { coreOf [0x47] with ptr := 1 }.memSize ≤ { coreOf [0x47] with ptr := 1 }.ptr.toNat := by decide
theorem test_witness_StepRunsDecodedInstruction :
    (coreOf [0x02, 0x01]).run = .running ∧ decode (coreOf [0x02, 0x01]).fetchBytes = .ok (.out, [0x01]) := ⟨rfl, rfl⟩
theorem test_witness_StepRunsStoredInstruction :
    (Instr.jez 0x3A).wellFormed = true ∧ (coreOf [0x21, 0x3A, 0, 0, 0]).About (encode (.jez 0x3A)) := by decide
theorem test_witness_FetchOutsideImageFaults :
    { coreOf [0x01] with pc := 1 }.run = .running ∧
      { coreOf [0x01] with pc := 1 }.memSize ≤ { coreOf [0x01] with pc := 1 }.pc.toNat := by decide
theorem test_witness_TruncatedInstructionFaults :
    (coreOf [0x21, 0, 0, 0]).run = .running ∧ (coreOf [0x21, 0, 0, 0]).pc.toNat < (coreOf [0x21, 0, 0, 0]).memSize ∧
      resolve ((coreOf [0x21, 0, 0, 0]).mem.read 0) = some .jez ∧
      (coreOf [0x21, 0, 0, 0]).memSize < 0 + Form.jez.length ∧
      0 + Form.jez.length ≤ (coreOf [0x21, 0, 0, 0, 0]).memSize := by decide
theorem test_witness_EndedCoreNeverChanges :
    { coreOf [0x01] with run := .halted }.run ≠ .running ∧ { coreOf [0x01] with run := .faulted }.run ≠ .running ∧
      (coreOf [0x01]).run = .running := by decide
theorem test_witness_FaultWritesOnlyRunAndCause :
    (coreOf [0x40, 0x12]).run = .running ∧ (∃ t, step (coreOf [0x40, 0x12]) = .next t ∧ t.run = .faulted) ∧
      ∃ t, step (coreOf [0x40]) = .next t ∧ t.run = .faulted := ⟨rfl, ⟨_, rfl, rfl⟩, _, rfl, rfl⟩
theorem test_witness_PcChangesInFourWays :
    (∃ t, step (coreOf [0xB0, 1, 0, 0, 0]) = .next t) ∧
      (coreOf [0xB0, 1, 0, 0, 0]).nextInstr = some (.mvi32 (.reg .pc) 1) ∧ (coreOf [0xFF]).nextInstr = none ∧
      ∃ t, step (coreOf [0xFF]) = .next t := ⟨⟨_, rfl⟩, rfl, rfl, _, rfl⟩
theorem test_witness_OnlyListedInstructionsWrite :
    ∃ t, step (coreOf [0x48, 0x48]) = .next t ∧ t.byteReg .a ≠ (coreOf [0x48, 0x48]).byteReg .a :=
  ⟨_, rfl, by decide⟩
theorem test_witness_MemoryChangesOnlyAtIndirectCell :
    ∃ t, step { coreOf [0x78, 0xAB, 0] with ptr := 2 } = .next t ∧
      t.mem.read 2 ≠ { coreOf [0x78, 0xAB, 0] with ptr := 2 }.mem.read 2 := ⟨_, rfl, by decide⟩
theorem test_witness_StoreIsSeenByNextFetch :
    (coreOf [0x78, 0xAB]).ptr.toNat + (coreOf [0x78, 0xAB]).c.toNat < (coreOf [0x78, 0xAB]).memSize := by decide
theorem test_witness_PlacedWordRunsNext : decodeTableWord 8 0x02 = some .out := by decide
theorem test_witness_OutputIsNeverRead : ∃ t, step (coreOf [0x02]) = .next t := ⟨_, rfl⟩
theorem test_witness_RunStateAndCauseAreNeverRead : ∃ t, exec .halt (coreOf [0x01]) = .next t := ⟨_, rfl⟩
theorem test_witness_GeneralWordsAreReadOnlyByMoves :
    (coreOf [0xC2]).AgreeButGeneralWords { coreOf [0xC2] with la := 7 } ∧ (∀ dst src, Instr.add ≠ .mv32 dst src) ∧
      ∃ t, exec .add (coreOf [0xC2]) = .next t := ⟨rfl, nofun, _, rfl⟩
theorem test_witness_alu_about :
    (coreOf [0xC2]).About [0xC2] ∧ (coreOf [0xC3]).About [0xC3] ∧ (coreOf [0xC4]).About [0xC4] ∧
      (coreOf [0xC1]).About [0xC1] ∧ (coreOf [0xC2]).memSize ≤ { coreOf [0xC2] with pc := 1 }.pc.toNat := by decide
theorem test_witness_HaltEndsTheRun :
    (coreOf [0x01]).About [0x01] ∧ (coreOf [0x01]).run = .running ∧
      ∃ t, step (coreOf [0x01]) = .next t ∧ t.run = .halted ∧ Host.Core.run core 2 t = .next t :=
  ⟨by decide, rfl, _, rfl, rfl, rfl⟩
theorem test_witness_OutAppendsSnapshotsInOrder :
    (coreOf [0x02]).About [0x02] ∧ ∃ t, Host.Core.run core 1 (coreOf [0x02]) = .next t := ⟨by decide, _, rfl⟩
theorem test_witness_AptrAddsUnsignedImmediate :
    (coreOf [0xE1, 0x01]).About [0xE1, 0x01] ∧ (coreOf [0xE1]).run = .running ∧
      (coreOf [0xE1]).pc.toNat + 1 = (coreOf [0xE1]).memSize ∧ (coreOf [0xE1]).mem.read 0 = 0xE1 := by decide
theorem test_witness_branch :
    (coreOf [0x21, 5, 0, 0, 0]).About [0x21, 5, 0, 0, 0] ∧ (coreOf [0x22, 5, 0, 0, 0]).About [0x22, 5, 0, 0, 0] ∧
      { coreOf [0x21, 5, 0, 0, 0] with pc := 5 }.memSize ≤ { coreOf [0x21, 5, 0, 0, 0] with pc := 5 }.pc.toNat ∧
      resolve ({ coreOf [0x21, 4, 0, 0, 0] with pc := 4 }.mem.read 4) = none ∧
      (coreOf [0x21, 0, 0, 0]).memSize < (coreOf [0x21, 0, 0, 0]).pc.toNat + 5 ∧
      (coreOf [0x22, 0, 0, 0]).memSize < (coreOf [0x22, 0, 0, 0]).pc.toNat + 5 ∧ (6 : Word) ≠ State.reset.pc + 5 := by
  decide
theorem test_witness_indirect_inside_and_outside :
    { coreOf [0x4F, 0x99] with ptr := 1 }.ptr.toNat + 0 < (coreOf [0x4F, 0x99]).memSize ∧
      (coreOf [0x4F, 0x99]).memSize ≤ { coreOf [0x4F, 0x99] with ptr := 1, c := 1 }.ptr.toNat + 1 ∧
      (coreOf [0x4F, 0x99]).mem.wf = true := by decide
theorem test_witness_frames :
    (∃ t, exec .cmp (coreOf [0xC1]) = .next t) ∧ (∃ t, exec (.aptr 1) (coreOf [0xE1, 1]) = .next t) ∧
      (∃ t, exec (.mvi .ind 1) (coreOf [0x78, 1]) = .next t) ∧ ∃ t, exec (.mv32 .undef7 .undef7) (coreOf [0xBF]) = .next t :=
  ⟨⟨_, rfl⟩, ⟨_, rfl⟩, ⟨_, rfl⟩, _, rfl⟩

end Sys2Proof.Tests
end

namespace Sys2Proof.Machine

/-! The image a core is constructed from (spec/10_state.md R25). -/

/-- The list made from an image reads back as the image. -/
theorem Memory.read_ofImageAt (addr : Nat) (image : List Byte) (k : Nat) (h : k < image.length) :
    (Memory.ofImageAt addr image).read (addr + k) = image[k] := by
  induction image generalizing addr k with
  | nil => exact absurd h (Nat.not_lt_zero k)
  | cons v rest ih =>
    have hrest (j : Nat) (hj : j < rest.length) :
        (Memory.ofImageAt (addr + 1) rest).read (addr + (j + 1)) = rest[j] := by
      rw [← ih (addr + 1) j hj, Nat.add_right_comm, Nat.add_assoc]
    simp only [Memory.ofImageAt]
    split
    · next hv =>
      cases k with
      | zero =>
        have hwf := Memory.wfFrom_ofImageAt (addr + 1) rest
        exact (Memory.read_of_wfFrom hwf (Nat.lt_succ_self addr)).trans hv.symm
      | succ j => exact hrest j (Nat.lt_of_succ_lt_succ h)
    · cases k with
      | zero => exact (Memory.read_cons addr v _ addr).trans (if_pos rfl)
      | succ j => rw [Memory.read_cons, if_neg (by omega)]; exact hrest j (Nat.lt_of_succ_lt_succ h)

/-- A core is constructed exactly from an image whose length is in R4's range, and is then reset with that image. -/
theorem State.construct_eq_some {image : List Byte} {s : State} :
    State.construct image = some s ↔
      (Config.minMemSize ≤ image.length ∧ image.length ≤ Config.maxMemSize) ∧
        s = State.resetWith image.length (Memory.ofImageAt 0 image) := by
  rw [State.construct, Option.ite_none_right_eq_some, Option.some.injEq, eq_comm (a := s)]

/-! No step writes `memSize`; what every step keeps, every run keeps. -/

theorem ExecCase.memSize_eq {s t : State} {i : Instr} (h : ExecCase s i t) : t.memSize = s.memSize := by
  cases h <;> simp only [State.advance_memSize, State.setByteReg_memSize, State.setWordReg_memSize,
    State.storeByte_memSize, State.emit_memSize, State.halt_memSize, State.takeFault_memSize]

theorem step_memSize {s t : State} (h : step s = .next t) : t.memSize = s.memSize := by
  obtain ⟨-, i, -, hexec⟩ | ⟨-, cause, -, rfl⟩ | ⟨-, rfl⟩ := step_cases h
  · exact (exec_cases hexec).memSize_eq
  · exact State.takeFault_memSize s cause
  · rfl

/-- A run of `k + 1` steps is a step and then a run of `k` steps. -/
theorem run_succ_next {M : Host.Core} {k : Nat} {s t : M.State} (h : M.run (k + 1) s = .next t) :
    ∃ u, M.step s = .next u ∧ M.run k u = .next t := by
  rw [Host.Core.run] at h
  split at h
  · next u hu => exact ⟨u, hu, h⟩
  · cases h
  · cases h

/-- What every step keeps holds after any number of steps. -/
theorem run_preserves {P : State → Prop} (hstep : ∀ s t, P s → step s = .next t → P t) {k : Nat} {s t : State}
    (hs : P s) (h : Host.Core.run core k s = .next t) : P t := by
  induction k generalizing s with
  | zero => cases h; exact hs
  | succ k ih =>
    obtain ⟨u, hu, hrun⟩ := run_succ_next h
    exact ih (hstep s u hs hu) hrun

theorem run_memSize {k : Nat} {s t : State} (h : Host.Core.run core k s = .next t) : t.memSize = s.memSize :=
  run_preserves (P := fun u => u.memSize = s.memSize) (fun _ _ hu hv => (step_memSize hv).trans hu) rfl h

/-- Settles O5: construction lists the image's bytes, and since no step writes `memSize`, no run does. -/
theorem memorySizeIsSetOnceAtConstruction : Obligations.MemorySizeIsSetOnceAtConstruction := by
  refine ⟨fun image s h => ?_, fun _ _ _ => run_memSize⟩
  obtain ⟨-, rfl⟩ := State.construct_eq_some.mp h
  refine ⟨rfl, fun k hk => ?_⟩
  exact (congrArg _ (Nat.zero_add k).symm).trans (Memory.read_ofImageAt 0 image k hk)

end Sys2Proof.Machine

namespace Sys2Proof

/-! The illegal first bytes (spec/30_encoding.md R57). -/

/-- R57's ranges are the bytes that match no row of the opcode table. -/
theorem resolve_eq_none_iff : ∀ op : Byte, resolve op = none ↔ Machine.illegalFirstByte op = true := by decide

theorem decode_of_resolve_none {op : Byte} (h : resolve op = none) (rest : List Byte) :
    decode (op :: rest) = .error (.noMatch op) := by
  simp only [decode, h]

end Sys2Proof

namespace Sys2Proof.Machine

/-- R57's count, by the mode `op[7:6]`: 60 of the 64 bytes of mode 0 are illegal, none of the modes 1 and 2, and 59 of
mode 3. -/
theorem countP_illegalFirstByte :
    ((List.range 256).countP fun n => illegalFirstByte (BitVec.ofNat 8 n)) = 119 := by
  have hrange : List.range 256 = List.range 64 ++ (List.range 64).map (64 + ·) ++ (List.range 64).map (128 + ·) ++
      (List.range 64).map (192 + ·) := by
    simp only [← List.range_add, Nat.reduceAdd]
  have hmode0 : ((List.range 64).countP fun n => illegalFirstByte (BitVec.ofNat 8 n)) = 60 := by decide
  have hmode1 : ((List.range 64).countP fun n => illegalFirstByte (BitVec.ofNat 8 (64 + n))) = 0 := by decide
  have hmode2 : ((List.range 64).countP fun n => illegalFirstByte (BitVec.ofNat 8 (128 + n))) = 0 := by decide
  have hmode3 : ((List.range 64).countP fun n => illegalFirstByte (BitVec.ofNat 8 (192 + n))) = 59 := by decide
  simp only [hrange, List.countP_append, List.countP_map, Function.comp_def, hmode0, hmode1, hmode2, hmode3]

/-- With `pc` inside the image, the first byte fetched is the one at `pc`. -/
theorem State.fetchBytes_of_pc_lt {s : State} (h : s.pc.toNat < s.memSize) :
    s.fetchBytes = s.mem.read s.pc.toNat :: s.mem.window s.memSize (s.pc.toNat + 1) 4 :=
  (Memory.window_succ s.mem s.memSize s.pc.toNat 4).trans (if_pos h)

/-- R102: a byte that resolves to no form faults at the fetch, and the cause records that byte. -/
theorem fetch_of_resolve_none {s : State} (hpc : s.pc.toNat < s.memSize)
    (hop : resolve (s.mem.read s.pc.toNat) = none) :
    fetch s = .error (.noMatch s.pc (s.mem.read s.pc.toNat)) := by
  have hdecode : decode s.fetchBytes = .error (.noMatch (s.mem.read s.pc.toNat)) := by
    rw [State.fetchBytes_of_pc_lt hpc, decode_of_resolve_none hop]
  exact fetch_error.mpr ⟨_, hdecode, rfl⟩

/-- Settles O11: by the table's 256 bytes for the list and its count, and since the fetch faults on a byte of the list,
the step takes that fault and does nothing else. -/
theorem illegalFirstBytesFault : Obligations.IllegalFirstBytesFault := by
  refine ⟨resolve_eq_none_iff, countP_illegalFirstByte, fun s hrun hpc hillegal => ⟨s.pc, ?_⟩⟩
  have hop : resolve (s.mem.read s.pc.toNat) = none := (resolve_eq_none_iff _).mpr hillegal
  exact step_of_fetch_error hrun (fetch_of_resolve_none hpc hop)

end Sys2Proof.Machine

namespace Sys2Proof.Machine

/-! The step of an instruction whose bytes stand at `pc` (spec/40_step_cycle.md R71), and the fetch from outside the
image (spec/60_exceptions.md R105). -/

/-- A window over bytes that stand in the image begins with those bytes. -/
theorem Memory.window_of_holds {s : State} {addr : Nat} {bytes : List Byte} (h : s.Holds addr bytes) (n : Nat) :
    s.mem.window s.memSize addr (bytes.length + n) =
      bytes ++ s.mem.window s.memSize (addr + bytes.length) n := by
  induction bytes generalizing addr with
  | nil => simp only [List.length_nil, Nat.zero_add, Nat.add_zero, List.nil_append]
  | cons v rest ih =>
    obtain ⟨hsize, hread⟩ := h
    rw [List.length_cons] at hsize
    have hv : s.mem.read addr = v := hread 0 (Nat.zero_lt_succ _)
    have hrest : s.Holds (addr + 1) rest := by
      refine ⟨by omega, fun k hk => ?_⟩
      rw [Nat.add_assoc, Nat.add_comm 1 k]
      exact hread (k + 1) (Nat.succ_lt_succ hk)
    rw [List.length_cons, Nat.add_right_comm, Memory.window_succ, if_pos (by omega), hv, ih hrest, List.cons_append,
      Nat.add_assoc, Nat.add_comm 1]

/-- What the bytes at `pc` decode to, whatever follows them, is what the step of a RUNNING core executes. -/
theorem step_of_about {s : State} {bytes : List Byte} {i : Instr} (hlength : bytes.length ≤ 5)
    (hdecode : ∀ rest, decode (bytes ++ rest) = .ok (i, rest)) (h : s.About bytes) : step s = exec i s := by
  obtain ⟨hrun, hholds⟩ := h
  have hfetch := Memory.window_of_holds hholds (5 - bytes.length)
  rw [Nat.add_sub_of_le hlength] at hfetch
  exact step_of_fetch_ok hrun (fetch_ok.mpr ⟨_, (congrArg decode hfetch).trans (hdecode _)⟩)

/-- With `pc` outside the image no byte is fetched. -/
theorem State.fetchBytes_of_memSize_le_pc {s : State} (h : s.memSize ≤ s.pc.toNat) : s.fetchBytes = [] :=
  (Memory.window_succ s.mem s.memSize s.pc.toNat 4).trans (if_neg (Nat.not_lt.mpr h))

/-- R105: with `pc` outside the image the step takes the fault of the fetch. -/
theorem step_of_memSize_le_pc {s : State} (hrun : s.run = .running) (h : s.memSize ≤ s.pc.toNat) :
    step s = .next (s.takeFault (.fetch s.pc)) :=
  step_of_fetch_error hrun
    (fetch_error.mpr ⟨.noBytes, congrArg decode (State.fetchBytes_of_memSize_le_pc h), rfl⟩)

/-! The ALU instructions (spec/41_alu.md): their bytes, and the state each leaves written out. -/

theorem decode_add (rest : List Byte) : decode (0xC2 :: rest) = .ok (.add, rest) := rfl
theorem decode_sub (rest : List Byte) : decode (0xC3 :: rest) = .ok (.sub, rest) := rfl
theorem decode_xor (rest : List Byte) : decode (0xC4 :: rest) = .ok (.xor, rest) := rfl
theorem decode_cmp (rest : List Byte) : decode (0xC1 :: rest) = .ok (.cmp, rest) := rfl

theorem exec_add (s : State) : exec .add s = .next { s with a := s.a + s.b, pc := s.pc + 1 } := exec_of_case .add
theorem exec_sub (s : State) : exec .sub s = .next { s with a := s.a - s.b, pc := s.pc + 1 } := exec_of_case .sub
theorem exec_xor (s : State) : exec .xor s = .next { s with a := s.a ^^^ s.b, pc := s.pc + 1 } := exec_of_case .xor
theorem exec_cmp (s : State) : exec .cmp s = .next { s with f := compareFlag s.a s.b, pc := s.pc + 1 } :=
  exec_of_case .cmp

/-- A sum of bytes is the sum of their values modulo 256. -/
theorem add_eq_ofNat_mod (x y : Byte) : x + y = BitVec.ofNat 8 ((x.toNat + y.toNat) % 256) :=
  BitVec.eq_of_toNat_eq (by rw [BitVec.toNat_add, BitVec.toNat_ofNat, Nat.mod_mod])

/-- The difference of two bytes as R81 gives it: 256 added where the raw one is negative. -/
theorem sub_eq_ofNat_ite (x y : Byte) :
    x - y = BitVec.ofNat 8 (if y.toNat ≤ x.toNat then x.toNat - y.toNat else x.toNat + 256 - y.toNat) := by
  apply BitVec.eq_of_toNat_eq
  rw [BitVec.toNat_sub, BitVec.toNat_ofNat]
  split <;> omega

theorem compareFlag_eq_zero_iff (x y : Byte) : compareFlag x y = 0 ↔ x = y := by
  unfold compareFlag
  split
  · next h => exact iff_of_true rfl h
  · next h => exact iff_of_false (by decide) h

/-- R89: JEZ writes `pc` alone, the target exactly when `f` is 0. -/
theorem exec_jez_next (target : Word) (s : State) :
    exec (.jez target) s = .next { s with pc := if s.f = 0 then target else s.pc + 5 } := by
  rw [exec_jez]
  split <;> rfl

/-- R90: JNZ writes `pc` alone, the target exactly when `f` is not 0. -/
theorem exec_jnz_next (target : Word) (s : State) :
    exec (.jnz target) s = .next { s with pc := if s.f = 0 then s.pc + 5 else target } := by
  rw [exec_jnz]
  split <;> rfl

/-- Settles O28: byte addition is the sum modulo 256, and a `pc` outside the image fetches no byte. -/
theorem addWritesSumModulo256 : Obligations.AddWritesSumModulo256 := by
  refine ⟨decode_add, fun s => ?_⟩
  have hexec := exec_add s
  rw [add_eq_ofNat_mod] at hexec
  exact ⟨hexec, fun h => (step_of_about (by decide) decode_add h).trans hexec,
    fun hrun hpc => ⟨s.pc, step_of_memSize_le_pc hrun hpc⟩⟩

/-- Settles O29: byte subtraction adds 256 exactly where the raw difference is negative. -/
theorem subWritesDifferenceModulo256 : Obligations.SubWritesDifferenceModulo256 := by
  refine ⟨decode_sub, fun s => ?_⟩
  have hexec := exec_sub s
  rw [sub_eq_ofNat_ite] at hexec
  refine ⟨?_, hexec, fun h => (step_of_about (by decide) decode_sub h).trans hexec⟩
  have ha := s.a.isLt
  split <;> omega

/-- Settles O30: the exclusive or of bytes is taken bit by bit. -/
theorem xorWritesBitwiseExclusiveOr : Obligations.XorWritesBitwiseExclusiveOr := by
  refine ⟨decode_xor, fun s => ⟨{ s with a := s.a ^^^ s.b, pc := s.pc + 1 }, exec_xor s, rfl, ?_, ?_⟩⟩
  · exact fun k _ => BitVec.getLsbD_xor
  · exact fun h => (step_of_about (by decide) decode_xor h).trans (exec_xor s)

/-- Settles O31: the flag CMP writes is 0 exactly when `a = b`, and JEZ and JNZ jump by whether `f` is 0. -/
theorem cmpWritesFlag : Obligations.CmpWritesFlag := by
  refine ⟨decode_cmp, fun s => ⟨exec_cmp s, ?_, fun target => ?_⟩⟩
  · exact fun h => (step_of_about (by decide) decode_cmp h).trans (exec_cmp s)
  · have hflag : (if s.a = s.b then (0 : Byte) else 1) = 0 ↔ s.a = s.b := compareFlag_eq_zero_iff s.a s.b
    simp only [exec_jez_next, exec_jnz_next, hflag, and_self]

end Sys2Proof.Machine

namespace Sys2Proof

/-! What the bytes decode to fixes the first byte (spec/30_encoding.md R54, R55). -/

theorem decodeImm8_ok {op : Byte} {bytes rest : List Byte} {make : Byte → Instr} {i : Instr}
    (h : decodeImm8 op bytes make = .ok (i, rest)) : ∃ imm8, i = make imm8 := by
  unfold decodeImm8 at h
  split at h
  · next b _ => cases h; exact ⟨b, rfl⟩
  · cases h

theorem decodeImm32_ok {op : Byte} {bytes rest : List Byte} {make : Word → Instr} {i : Instr}
    (h : decodeImm32 op bytes make = .ok (i, rest)) : ∃ imm32, i = make imm32 := by
  unfold decodeImm32 at h
  split at h
  · next b0 b1 b2 b3 _ => cases h; exact ⟨wordOfBytes b0 b1 b2 b3, rfl⟩
  · cases h

/-- Reading a form's operands answers an instruction of that form. -/
theorem decodeForm_ok {form : Form} {op : Byte} {bytes rest : List Byte} {i : Instr}
    (h : decodeForm form op bytes = .ok (i, rest)) : i.form = form := by
  cases form with
  | aptr | mvi => obtain ⟨imm8, rfl⟩ := decodeImm8_ok h; rfl
  | jez | jnz | mvi32 => obtain ⟨imm32, rfl⟩ := decodeImm32_ok h; rfl
  | add | cmp | halt | mv | mv32 | out | sub | xor => cases h; rfl

/-- Bytes that decode begin with a byte that resolves to the instruction's form. -/
theorem decode_ok {bytes rest : List Byte} {i : Instr} (h : decode bytes = .ok (i, rest)) :
    ∃ op tail, bytes = op :: tail ∧ resolve op = some i.form := by
  unfold decode at h
  split at h
  · cases h
  · next op tail =>
    split at h
    · cases h
    · next form hform => exact ⟨op, tail, rfl, decodeForm_ok h ▸ hform⟩

theorem resolve_eq_halt_iff : ∀ op : Byte, resolve op = some .halt ↔ op = 0x01 := by decide

end Sys2Proof

namespace Sys2Proof.Machine

/-! The system instructions (spec/42_system.md): their bytes, and the state each leaves written out. -/

theorem decode_halt (rest : List Byte) : decode (0x01 :: rest) = .ok (.halt, rest) := rfl
theorem decode_out (rest : List Byte) : decode (0x02 :: rest) = .ok (.out, rest) := rfl

theorem exec_halt (s : State) : exec .halt s = .next { s with run := .halted, pc := s.pc + 1 } := exec_of_case .halt
theorem exec_out (s : State) : exec .out s = .next { s with out := s.out ++ [s.a], pc := s.pc + 1 } :=
  exec_of_case .out

/-! OUT and no other instruction appends to the output (spec/42_system.md R86). -/

/-- The instruction about to run is the one a RUNNING core fetches. -/
theorem State.nextInstr_eq_some_iff {s : State} {i : Instr} :
    s.nextInstr = some i ↔ s.run = .running ∧ fetch s = .ok i := by
  unfold State.nextInstr
  split
  · next hrun hfetch => simp only [hrun, hfetch, Option.some.injEq, Except.ok.injEq, true_and]
  · next hfetch => simp only [hfetch, reduceCtorEq, and_false]
  · next hrun => simp only [hrun, reduceCtorEq, false_and]
  · next hrun => simp only [hrun, reduceCtorEq, false_and]

theorem ExecCase.out_eq {s t : State} {i : Instr} (h : ExecCase s i t) :
    t.out = s.out ++ if i = .out then [s.a] else [] := by
  cases h with
  | out => rfl
  | _ => simp only [reduceCtorEq, if_false, List.append_nil, State.advance_out, State.setByteReg_out,
      State.setWordReg_out, State.storeByte_out, State.halt_out, State.takeFault_out]

/-- A step appends `a` if it executes OUT, and nothing if it does not. -/
theorem step_out {s t : State} (h : step s = .next t) :
    t.out = s.out ++ if s.nextInstr = some .out then [s.a] else [] := by
  simp only [State.nextInstr_eq_some_iff]
  obtain ⟨hrun, i, hfetch, hexec⟩ | ⟨-, cause, hfetch, rfl⟩ | ⟨hrun, rfl⟩ := step_cases h
  · simp only [hrun, hfetch, true_and, Except.ok.injEq, (exec_cases hexec).out_eq]
  · simp only [hfetch, reduceCtorEq, and_false, if_false, List.append_nil, State.takeFault_out]
  · simp only [hrun, false_and, if_false, List.append_nil]

theorem outSnapshots_succ {s u : State} (h : step s = .next u) (k : Nat) :
    outSnapshots (k + 1) s = (if s.nextInstr = some .out then [s.a] else []) ++ outSnapshots k u := by
  rw [outSnapshots, h]

/-- R86 over a run: each step's own snapshot comes before those of the steps after it. -/
theorem run_out {k : Nat} {s t : State} (h : Host.Core.run core k s = .next t) :
    t.out = s.out ++ outSnapshots k s := by
  induction k generalizing s with
  | zero => cases h; exact (List.append_nil _).symm
  | succ k ih =>
    obtain ⟨u, hstep, hrun⟩ := run_succ_next h
    rw [ih hrun, step_out hstep, outSnapshots_succ hstep, List.append_assoc]

/-- Settles O33: by induction on the number of steps, each of which appends its own snapshot. -/
theorem outAppendsSnapshotsInOrder : Obligations.OutAppendsSnapshotsInOrder :=
  ⟨decode_out, fun s => ⟨exec_out s, fun h => (step_of_about (by decide) decode_out h).trans (exec_out s)⟩,
    fun _ _ _ => run_out⟩

/-! HALT ends the run for good, and nothing else ends it HALTED (spec/42_system.md R85). -/

/-- R70: once the run has ended, no number of steps changes anything. -/
theorem run_of_ended {k : Nat} {s t : State} (hs : s.run ≠ .running) (h : Host.Core.run core k s = .next t) :
    t = s := by
  refine run_preserves (P := fun u => u = s) (fun u v hu hstep => ?_) rfl h
  subst hu
  obtain ⟨hrun, -⟩ | ⟨hrun, -⟩ | ⟨-, rfl⟩ := step_cases hstep
  · exact absurd hrun hs
  · exact absurd hrun hs
  · rfl

/-- An instruction leaves the run state alone, faults, or is HALT. -/
theorem ExecCase.run_eq {s t : State} {i : Instr} (h : ExecCase s i t) :
    t.run = s.run ∨ t.run = .faulted ∨ i = .halt := by
  cases h with
  | halt => exact .inr (.inr rfl)
  | mvFault | mviFault | mv32Fault | mvi32Fault => exact .inr (.inl rfl)
  | _ => exact .inl (by simp only [State.advance_run, State.setByteReg_run, State.setWordReg_run,
      State.storeByte_run, State.emit_run])

/-- HALT is fetched only where its byte stands at `pc`. -/
theorem about_of_fetch_halt {s : State} (hrun : s.run = .running) (h : fetch s = .ok .halt) : s.About [0x01] := by
  obtain ⟨_, hdecode⟩ := fetch_ok.mp h
  obtain ⟨op, tail, hbytes, hop⟩ := decode_ok hdecode
  have hpc : s.pc.toNat < s.memSize := by
    by_contra hge
    rw [State.fetchBytes_of_memSize_le_pc (Nat.not_lt.mp hge)] at hbytes
    cases hbytes
  rw [State.fetchBytes_of_pc_lt hpc] at hbytes
  have hread : s.mem.read s.pc.toNat = 0x01 :=
    (List.cons.inj hbytes).1.trans ((resolve_eq_halt_iff op).mp hop)
  refine ⟨hrun, hpc, fun k hk => ?_⟩
  obtain rfl : k = 0 := Nat.lt_one_iff.mp hk
  exact hread

/-- A step of a RUNNING core ends HALTED only by executing HALT. -/
theorem about_of_step_halted {s t : State} (hrun : s.run = .running) (h : step s = .next t)
    (ht : t.run = .halted) : s.About [0x01] := by
  obtain ⟨-, i, hfetch, hexec⟩ | ⟨-, cause, -, rfl⟩ | ⟨hended, -⟩ := step_cases h
  · obtain hsame | hfault | rfl := (exec_cases hexec).run_eq
    · exact absurd (hrun.symm.trans (hsame.symm.trans ht)) (by decide)
    · exact absurd (hfault.symm.trans ht) (by decide)
    · exact about_of_fetch_halt hrun hfetch
  · exact absurd ht RunState.noConfusion
  · exact absurd hrun hended

/-- Settles O32: HALT's state takes no further step, and every other end of a step leaves the core RUNNING or FAULTED. -/
theorem haltEndsTheRun : Obligations.HaltEndsTheRun := by
  refine ⟨decode_halt, fun s => ⟨exec_halt s, ?_, rfl, ?_⟩, fun _ _ => about_of_step_halted⟩
  · exact fun h => (step_of_about (by decide) decode_halt h).trans (exec_halt s)
  · exact fun _ _ => run_of_ended RunState.noConfusion

end Sys2Proof.Machine

namespace Sys2Proof

/-! The 5-byte forms: the immediate least significant byte first, and what is missing when the operand is cut short
(spec/20_memory.md R35, spec/30_encoding.md R53). -/

/-- A byte put below a bit string adds to 256 times its value. -/
theorem toNat_append_byte {n : Nat} (high : BitVec n) (low : Byte) :
    (high ++ low).toNat = 2 ^ 8 * high.toNat + low.toNat := by
  rw [BitVec.toNat_append, ← Nat.shiftLeft_add_eq_or_of_lt low.isLt, Nat.shiftLeft_eq, Nat.mul_comm]

/-- The sum R89 gives is the word of the four bytes. -/
theorem ofNat_sum_eq_wordOfBytes (b0 b1 b2 b3 : Byte) :
    BitVec.ofNat 32 (b0.toNat + 2 ^ 8 * b1.toNat + 2 ^ 16 * b2.toNat + 2 ^ 24 * b3.toNat) =
      wordOfBytes b0 b1 b2 b3 := by
  have hsum : (wordOfBytes b0 b1 b2 b3).toNat =
      b0.toNat + 2 ^ 8 * b1.toNat + 2 ^ 16 * b2.toNat + 2 ^ 24 * b3.toNat := by
    rw [wordOfBytes, toNat_append_byte, toNat_append_byte, toNat_append_byte]
    omega
  rw [← hsum, BitVec.ofNat_toNat, BitVec.setWidth_eq]

theorem decodeImm32_of_length_lt {op : Byte} {rest : List Byte} {make : Word → Instr} (h : rest.length < 4) :
    decodeImm32 op rest make = .error (.truncated op) := by
  match rest with
  | [] | [_] | [_, _] | [_, _, _] => rfl
  | _ :: _ :: _ :: _ :: _ => simp only [List.length_cons] at h; omega

theorem decode_of_resolve_some {op : Byte} {form : Form} (h : resolve op = some form) (rest : List Byte) :
    decode (op :: rest) = decodeForm form op rest := by
  simp only [decode, h]

end Sys2Proof

namespace Sys2Proof.Machine

theorem Memory.length_window_le (m : Memory) (size addr n : Nat) : (m.window size addr n).length ≤ size - addr := by
  induction n generalizing addr with
  | zero => exact Nat.zero_le _
  | succ n ih =>
    rw [Memory.window_succ]
    split
    · have := ih (addr + 1)
      rw [List.length_cons]
      omega
    · exact Nat.zero_le _

/-- R102: the step of a RUNNING core takes the fault of an illegal byte at `pc`. -/
theorem step_of_resolve_none {s : State} (hrun : s.run = .running) (hpc : s.pc.toNat < s.memSize)
    (hop : resolve (s.mem.read s.pc.toNat) = none) :
    step s = .next (s.takeFault (.noMatch s.pc (s.mem.read s.pc.toNat))) :=
  step_of_fetch_error hrun (fetch_of_resolve_none hpc hop)

/-! JEZ and JNZ (spec/43_pointer_branch.md R89, R90): one argument for both, over the form, its first byte and the
condition. -/

section
variable {op : Byte} {form : Form} {make : Word → Instr}

/-- R103: the step of a 5-byte form that begins in the image and ends past it takes the truncation fault. -/
theorem step_of_imm32_truncated (hop : resolve op = some form)
    (hform : ∀ rest, decodeForm form op rest = decodeImm32 op rest make) {s : State} (hrun : s.run = .running)
    (hpc : s.pc.toNat < s.memSize) (hend : s.memSize < s.pc.toNat + 5) (hread : s.mem.read s.pc.toNat = op) :
    step s = .next (s.takeFault (.truncated s.pc op)) := by
  have hshort := Memory.length_window_le s.mem s.memSize (s.pc.toNat + 1) 4
  have hdecode : decode s.fetchBytes = .error (.truncated op) := by
    rw [State.fetchBytes_of_pc_lt hpc, hread, decode_of_resolve_some hop, hform]
    exact decodeImm32_of_length_lt (by omega)
  exact step_of_fetch_error hrun (fetch_error.mpr ⟨_, hdecode, rfl⟩)

/-- A form read as a 32-bit immediate, whose instruction writes `pc` alone, is a branch as R89 and R90 describe it. -/
theorem branchRule_of_exec {taken : Byte → Bool} (hop : resolve op = some form)
    (hform : ∀ rest, decodeForm form op rest = decodeImm32 op rest make)
    (hexec : ∀ (target : Word) (s : State),
      exec (make target) s = .next { s with pc := if taken s.f then target else s.pc + 5 }) :
    branchRule op make taken := by
  refine ⟨fun b0 b1 b2 b3 s => ?_, hexec, fun s hrun hpc hend hread =>
    ⟨s.pc, op, step_of_imm32_truncated hop hform hrun hpc hend hread⟩⟩
  rw [ofNat_sum_eq_wordOfBytes]
  have hdecode (rest : List Byte) :
      decode (op :: b0 :: b1 :: b2 :: b3 :: rest) = .ok (make (wordOfBytes b0 b1 b2 b3), rest) :=
    (decode_of_resolve_some hop _).trans (hform _)
  refine ⟨hdecode, fun h => ?_, fun hrun hpc => ⟨_, step_of_memSize_le_pc hrun hpc⟩,
    fun hrun hpc hbad => ⟨_, _, step_of_resolve_none hrun hpc hbad⟩⟩
  exact (step_of_about (bytes := [op, b0, b1, b2, b3]) (Nat.le_refl 5) hdecode h).trans (hexec _ s)

end

/-- Settles O35: JEZ is the branch taken when `f` is 0. -/
theorem jezJumpsWhenFlagIsZero : Obligations.JezJumpsWhenFlagIsZero :=
  branchRule_of_exec (form := .jez) rfl (fun _ => rfl) fun target s => by
    simp only [exec_jez_next, decide_eq_true_eq]

/-- Settles O36: JNZ is the branch taken when `f` is not 0, so for every `f` one of the two goes to the target and the
other past its bytes. -/
theorem jnzJumpsWhenFlagIsNotZero : Obligations.JnzJumpsWhenFlagIsNotZero := by
  refine ⟨branchRule_of_exec (form := .jnz) rfl (fun _ => rfl) fun target s => ?_, fun s target _ =>
    ⟨_, _, exec_jez_next target s, exec_jnz_next target s, ?_⟩⟩
  · simp only [exec_jnz_next, decide_eq_true_eq, ne_eq, ite_not]
  · by_cases hf : s.f = 0
    · exact .inl ⟨if_pos hf, if_pos hf⟩
    · exact .inr ⟨if_neg hf, if_neg hf⟩

end Sys2Proof.Machine

namespace Sys2Proof

/-! Decoding and encoding are each other's inverse (spec/30_encoding.md R51 to R56). -/

/-- R56: in mode 1 the source field 0 is MVI, any other MV. -/
theorem resolve_moveByte_byte : ∀ dst src : BitVec 3,
    resolve (moveByte 0b01 dst src) = some (if src = 0 then .mvi else .mv) := by decide

/-- R56: in mode 2 the source field 0 is MVI32, any other MV32. -/
theorem resolve_moveByte_word : ∀ dst src : BitVec 3,
    resolve (moveByte 0b10 dst src) = some (if src = 0 then .mvi32 else .mv32) := by decide

theorem ByteSel.bits_eq_zero_iff {sel : ByteSel} : sel.bits = 0 ↔ sel = .undef := by
  cases sel with
  | reg r => cases r <;> decide
  | undef => decide
  | ind => decide

theorem WordSel.bits_eq_zero_iff {sel : WordSel} : sel.bits = 0 ↔ sel = .undef0 := by
  cases sel with
  | reg r => cases r <;> decide
  | undef0 => decide
  | undef7 => decide

theorem Instr.wellFormed_mv {dst src : ByteSel} : (Instr.mv dst src).wellFormed = true ↔ src ≠ .undef := bne_iff_ne
theorem Instr.wellFormed_mv32 {dst src : WordSel} : (Instr.mv32 dst src).wellFormed = true ↔ src ≠ .undef0 := bne_iff_ne

/-- The first byte of a well-formed instruction resolves to its form. -/
theorem resolve_opByte {i : Instr} (h : i.wellFormed = true) : resolve (opByte i) = some i.form := by
  cases i with
  | mvi dst v => exact resolve_moveByte_byte dst.bits 0
  | mvi32 dst w => exact resolve_moveByte_word dst.bits 0
  | mv dst src =>
    have hsrc : src.bits ≠ 0 := fun h0 => Instr.wellFormed_mv.mp h (ByteSel.bits_eq_zero_iff.mp h0)
    rw [opByte, resolve_moveByte_byte, if_neg hsrc, Instr.form]
  | mv32 dst src =>
    have hsrc : src.bits ≠ 0 := fun h0 => Instr.wellFormed_mv32.mp h (WordSel.bits_eq_zero_iff.mp h0)
    rw [opByte, resolve_moveByte_word, if_neg hsrc, Instr.form]
  | aptr v | jez w | jnz w => simp only [opByte, Instr.form]; rfl
  | add | cmp | halt | out | sub | xor => rfl

theorem decodeImm32_immBytes (op : Byte) (w : Word) (rest : List Byte) (make : Word → Instr) :
    decodeImm32 op (immBytes w ++ rest) make = .ok (make w, rest) := by
  simp only [immBytes, List.cons_append, List.nil_append, decodeImm32, wordOfBytes_byteOfWord]

/-- The operands of an instruction are read back from the fields of its first byte and the bytes after it. -/
theorem decodeForm_operandBytes (i : Instr) (rest : List Byte) :
    decodeForm i.form (opByte i) (operandBytes i ++ rest) = .ok (i, rest) := by
  cases i with
  | jez w => exact decodeImm32_immBytes (opByte (.jez w)) w rest .jez
  | jnz w => exact decodeImm32_immBytes (opByte (.jnz w)) w rest .jnz
  | mvi32 dst w =>
    refine (decodeImm32_immBytes (opByte (.mvi32 dst w)) w rest _).trans ?_
    rw [opByte, dstField_moveByte, WordSel.ofBits_bits]
  | mvi dst v | mv dst src | mv32 dst src =>
    simp [decodeForm, decodeImm8, Instr.form, opByte, operandBytes]
  | add | aptr | cmp | halt | out | sub | xor => rfl

theorem decode_encode {i : Instr} (h : i.wellFormed = true) (rest : List Byte) :
    decode (encode i ++ rest) = .ok (i, rest) :=
  (decode_of_resolve_some (resolve_opByte h) _).trans (decodeForm_operandBytes i rest)

/-- Settles O6: the first byte resolves to the instruction's form, whose operands are read back. -/
theorem decodeOfEncodeIsIdentity : Obligations.DecodeOfEncodeIsIdentity := fun _ rest h => decode_encode h rest

/-- The first byte of an instruction of `form` whose selector fields are those of `op`. -/
def Form.firstByte (form : Form) (op : Byte) : Byte :=
  match form with
  | .mvi => moveByte 0b01 (dstField op) 0
  | .mvi32 => moveByte 0b10 (dstField op) 0
  | .mv => moveByte 0b01 (dstField op) (srcField op)
  | .mv32 => moveByte 0b10 (dstField op) (srcField op)
  | .add => opByte .add
  | .aptr => opByte (.aptr 0)
  | .cmp => opByte .cmp
  | .halt => opByte .halt
  | .jez => opByte (.jez 0)
  | .jnz => opByte (.jnz 0)
  | .out => opByte .out
  | .sub => opByte .sub
  | .xor => opByte .xor

/-- R54: a byte that resolves to a form is made of that form's opcode and the byte's own selector fields. -/
theorem Form.firstByte_of_resolve : ∀ op : Byte, ∀ form ∈ resolve op, form.firstByte op = op := by decide

/-- R56: a byte that resolves to MV or MV32 has a source field other than 0. -/
theorem srcField_of_resolve :
    ∀ op : Byte, resolve op = some .mv ∨ resolve op = some .mv32 → srcField op ≠ 0 := by decide

theorem toNat_wordOfBytes (b0 b1 b2 b3 : Byte) :
    (wordOfBytes b0 b1 b2 b3).toNat = b0.toNat + 2 ^ 8 * b1.toNat + 2 ^ 16 * b2.toNat + 2 ^ 24 * b3.toNat := by
  rw [← ofNat_sum_eq_wordOfBytes, BitVec.toNat_ofNat]
  omega

theorem toNat_byteOfWord (w : Word) (k : Nat) : (byteOfWord w k).toNat = w.toNat / 2 ^ (8 * k) % 2 ^ 8 := by
  rw [byteOfWord, BitVec.extractLsb'_toNat, Nat.shiftRight_eq_div_pow]

/-- The bytes of a word made of four bytes are those four. -/
theorem immBytes_wordOfBytes (b0 b1 b2 b3 : Byte) : immBytes (wordOfBytes b0 b1 b2 b3) = [b0, b1, b2, b3] := by
  simp only [immBytes, List.cons.injEq, and_true, ← BitVec.toNat_inj, toNat_byteOfWord, toNat_wordOfBytes]
  omega

theorem decodeImm8_eq_ok_iff {op : Byte} {bytes rest : List Byte} {make : Byte → Instr} {i : Instr} :
    decodeImm8 op bytes make = .ok (i, rest) ↔ ∃ imm8, i = make imm8 ∧ bytes = imm8 :: rest := by
  constructor
  · intro h
    unfold decodeImm8 at h
    split at h
    · next b tail => cases h; exact ⟨b, rfl, rfl⟩
    · cases h
  · rintro ⟨imm8, rfl, rfl⟩
    rfl

theorem decodeImm32_eq_ok_iff {op : Byte} {bytes rest : List Byte} {make : Word → Instr} {i : Instr} :
    decodeImm32 op bytes make = .ok (i, rest) ↔ ∃ imm32, i = make imm32 ∧ bytes = immBytes imm32 ++ rest := by
  constructor
  · intro h
    unfold decodeImm32 at h
    split at h
    · next b0 b1 b2 b3 tail => cases h; exact ⟨_, rfl, by rw [immBytes_wordOfBytes]; rfl⟩
    · cases h
  · rintro ⟨imm32, rfl, rfl⟩
    exact decodeImm32_immBytes op imm32 rest make

/-- Where a form's operands are read, the instruction's first byte is the form's opcode with the fields of the byte
read, and the bytes after it are the operands and what is left over. -/
theorem bytes_of_decodeForm {form : Form} {op : Byte} {bytes rest : List Byte} {i : Instr}
    (h : decodeForm form op bytes = .ok (i, rest)) :
    opByte i = form.firstByte op ∧ bytes = operandBytes i ++ rest := by
  cases form with
  | aptr | mvi =>
    obtain ⟨imm8, rfl, rfl⟩ := decodeImm8_eq_ok_iff.mp h
    simp [opByte, operandBytes, Form.firstByte]
  | jez | jnz | mvi32 =>
    obtain ⟨imm32, rfl, rfl⟩ := decodeImm32_eq_ok_iff.mp h
    simp [opByte, operandBytes, Form.firstByte]
  | mv | mv32 => cases h; simp [opByte, operandBytes, Form.firstByte]
  | add | cmp | halt | out | sub | xor => cases h; exact ⟨rfl, rfl⟩

/-- An instruction whose first byte resolves to its own form is well formed. -/
theorem Instr.wellFormed_of_resolve {i : Instr} (h : resolve (opByte i) = some i.form) : i.wellFormed = true := by
  cases i with
  | mv dst src =>
    have hsrc := srcField_of_resolve _ (.inl h)
    rw [opByte, srcField_moveByte] at hsrc
    exact Instr.wellFormed_mv.mpr fun h0 => hsrc (ByteSel.bits_eq_zero_iff.mpr h0)
  | mv32 dst src =>
    have hsrc := srcField_of_resolve _ (.inr h)
    rw [opByte, srcField_moveByte] at hsrc
    exact Instr.wellFormed_mv32.mpr fun h0 => hsrc (WordSel.bits_eq_zero_iff.mpr h0)
  | add | aptr | cmp | halt | jez | jnz | mvi | mvi32 | out | sub | xor => rfl

theorem encode_of_decode {bytes rest : List Byte} {i : Instr} (h : decode bytes = .ok (i, rest)) :
    i.wellFormed = true ∧ bytes = encode i ++ rest := by
  obtain ⟨op, tail, rfl, hop⟩ := decode_ok h
  rw [decode_of_resolve_some hop] at h
  obtain ⟨hfirst, rfl⟩ := bytes_of_decodeForm h
  rw [Form.firstByte_of_resolve op _ hop] at hfirst
  subst hfirst
  exact ⟨Instr.wellFormed_of_resolve hop, rfl⟩

/-- Settles O7: the byte that resolved is the instruction's own first byte, and the bytes after it its operands. -/
theorem decodedBytesAreTheEncoding : Obligations.DecodedBytesAreTheEncoding := fun _ _ _ h => encode_of_decode h

/-- Settles O8: each of the nine byte strings is decoded by evaluation. -/
theorem writtenOutBytesDecode : Obligations.WrittenOutBytesDecode :=
  ⟨rfl, rfl, rfl, rfl, rfl, rfl, rfl, rfl, rfl⟩

/-- Settles O9: by evaluating both decoders on all 256 first bytes. -/
theorem priorityOrderEqualsOrderFreeDecoder : Obligations.PriorityOrderEqualsOrderFreeDecoder := by
  unfold Obligations.PriorityOrderEqualsOrderFreeDecoder
  decide

/-- A count over the first bytes is the sum of the counts over the four modes `op[7:6]`. -/
theorem countP_range_256 (p : Nat → Bool) :
    (List.range 256).countP p =
      (List.range 64).countP p + (List.range 64).countP (fun n => p (64 + n)) +
        (List.range 64).countP (fun n => p (128 + n)) + (List.range 64).countP fun n => p (192 + n) := by
  have hrange : List.range 256 = List.range 64 ++ (List.range 64).map (64 + ·) ++ (List.range 64).map (128 + ·) ++
      (List.range 64).map (192 + ·) := by
    simp only [← List.range_add, Nat.reduceAdd]
  simp only [hrange, List.countP_append, List.countP_map, Function.comp_def]

/-- Settles O10: the counts of the four modes, each by evaluation, added up. -/
theorem firstByteMapCounts : Obligations.FirstByteMapCounts := by
  unfold Obligations.FirstByteMapCounts
  simp only [countP_range_256]
  decide

theorem Form.length_le_five (form : Form) : form.length ≤ 5 := by
  cases form <;> decide

theorem length_encode (i : Instr) : (encode i).length = i.form.length := by
  cases i <;> rfl

end Sys2Proof

namespace Sys2Proof.Machine

/-! Which instruction the step executes (spec/40_step_cycle.md R71). -/

/-- Settles O13: what the bytes at `pc` decode to is what is fetched. -/
theorem stepRunsDecodedInstruction : Obligations.StepRunsDecodedInstruction := fun _ _ rest hrun h =>
  ⟨(encode_of_decode h).1, step_of_fetch_ok hrun (fetch_ok.mpr ⟨rest, h⟩)⟩

/-- Settles O14: no encoding is longer than what is fetched, and each decodes whatever bytes follow it. -/
theorem stepRunsStoredInstruction : Obligations.StepRunsStoredInstruction := fun _ i hi h =>
  step_of_about ((length_encode i).trans_le i.form.length_le_five) (decode_encode hi) h

end Sys2Proof.Machine

namespace Sys2Proof.Machine

/-! What executing an instruction can change, component by component (spec/10_state.md R28). -/

/-- The forms that can fault in phase 3 (spec/60_exceptions.md R104, R106). -/
def moveForms : List Form := [.mv, .mvi, .mv32, .mvi32]

/-- An instruction leaves the run state and the cause, or is HALT, or is a move that faults past its own bytes. -/
theorem ExecCase.run_cause_cases {s t : State} {i : Instr} (h : ExecCase s i t) :
    (t.run = s.run ∧ t.cause = s.cause) ∨ (i = .halt ∧ t.run = .halted ∧ t.cause = s.cause) ∨
      (i.form ∈ moveForms ∧
        ∃ k : AccessFault, t = (s.advance i.length).takeFault (k.toCause s.pc (opByte i))) := by
  cases h with
  | halt => exact .inr (.inl ⟨rfl, rfl, rfl⟩)
  | mvFault dst src k hk => exact .inr (.inr ⟨by simp [moveForms, Instr.form], k, rfl⟩)
  | mviFault dst v k hk => exact .inr (.inr ⟨by simp [moveForms, Instr.form], k, rfl⟩)
  | mv32Fault dst src k hk => exact .inr (.inr ⟨by simp [moveForms, Instr.form], k, rfl⟩)
  | mvi32Fault dst w k hk => exact .inr (.inr ⟨by simp [moveForms, Instr.form], k, rfl⟩)
  | _ => exact .inl (by simp)

/-- The byte registers an instruction may write. -/
def WritesByteReg (i : Instr) (r : ByteReg) : Prop :=
  (r = .a ∧ i ∈ [Instr.add, .sub, .xor]) ∨ (r = .f ∧ i = .cmp) ∨
    (∃ src, i = .mv (.reg r) src) ∨ ∃ v, i = .mvi (.reg r) v

theorem ExecCase.writesByteReg {s t : State} {i : Instr} (h : ExecCase s i t) {r : ByteReg}
    (hr : t.byteReg r ≠ s.byteReg r) : WritesByteReg i r := by
  unfold WritesByteReg
  cases h with
  | add | sub | xor | cmp | mvReg | mviReg =>
    simp only [State.byteReg_setByteReg, State.byteReg_advance, ne_eq, ite_eq_right_iff, Classical.not_imp] at hr
    obtain ⟨rfl, -⟩ := hr
    simp
  | _ => simp at hr

/-- The word registers an instruction may write, besides its advance of `pc`. -/
def WritesWordReg (i : Instr) (r : WordReg) : Prop :=
  (r = .ptr ∧ ∃ v, i = .aptr v) ∨ (∃ src, i = .mv32 (.reg r) src) ∨ ∃ v, i = .mvi32 (.reg r) v

theorem ExecCase.writesWordReg {s t : State} {i : Instr} (h : ExecCase s i t) {r : WordReg} (hpc : r ≠ .pc)
    (hr : t.wordReg r ≠ s.wordReg r) : WritesWordReg i r := by
  unfold WritesWordReg
  cases h with
  | aptr | mv32 | mvi32 =>
    simp only [State.wordReg_setWordReg, State.wordReg_advance, hpc, if_false, ne_eq, ite_eq_right_iff,
      Classical.not_imp] at hr
    obtain ⟨rfl, -⟩ := hr
    simp
  | jezTaken | jnzTaken => simp [hpc, Ne.symm hpc] at hr
  | _ => simp [hpc] at hr

/-- Memory stays, or MV or MVI with the indirect cell as destination writes that cell, inside the image. -/
theorem ExecCase.mem_cases {s t : State} {i : Instr} (h : ExecCase s i t) :
    t.mem = s.mem ∨ s.indirectAddress < s.memSize ∧
      ∃ v, t.mem = s.mem.write s.indirectAddress v ∧ ((∃ src, i = .mv .ind src) ∨ i = .mvi .ind v) := by
  cases h with
  | mvStore src v hv hlt => exact .inr ⟨hlt, v, rfl, .inl ⟨src, rfl⟩⟩
  | mviStore v hlt => exact .inr ⟨hlt, v, rfl, .inr rfl⟩
  | _ => exact .inl (by simp)

/-- The invariant asks only for memory, size, run state and cause, and every end of an instruction keeps it. -/
theorem ExecCase.inv {s t : State} {i : Instr} (h : ExecCase s i t) (hrun : s.run = .running) (hs : s.Inv) :
    t.Inv := by
  obtain ⟨hwf, hwithin, hmin, hmax, hcause⟩ := hs
  have hnone : s.cause = none := by simpa [hrun] using hcause
  have hmem : t.mem.wf = true ∧ t.mem.within s.memSize = true := by
    obtain hsame | ⟨hlt, v, hwrite, -⟩ := h.mem_cases
    · rw [hsame]; exact ⟨hwf, hwithin⟩
    · rw [hwrite]; exact ⟨Memory.wf_write hwf _ v, Memory.within_write v hwithin hlt⟩
  have hended : t.cause.isSome = true ↔ t.run = .faulted := by
    obtain ⟨hr, hc⟩ | ⟨-, hr, hc⟩ | ⟨-, k, rfl⟩ := h.run_cause_cases
    · simp [hr, hc, hrun, hnone]
    · simp [hr, hc, hnone]
    · simp
  rw [State.Inv, h.memSize_eq]
  exact ⟨hmem.1, hmem.2, hmin, hmax, hended⟩

/-- Settles O3: an executed instruction keeps the invariant, and a fault of the fetch records its cause. -/
theorem stepKeepsInvariant : Obligations.StepKeepsInvariant := by
  intro s t hs hstep
  obtain ⟨hrun, i, -, hexec⟩ | ⟨-, cause, -, rfl⟩ | ⟨-, rfl⟩ := step_cases hstep
  · exact (exec_cases hexec).inv hrun hs
  · obtain ⟨hwf, hwithin, hmin, hmax, -⟩ := hs
    exact ⟨hwf, hwithin, hmin, hmax, by simp⟩
  · exact hs

end Sys2Proof.Machine

namespace Sys2Proof.Machine

/-! What a step can change (spec/40_step_cycle.md R74, spec/60_exceptions.md R108). -/

theorem State.nextInstr_eq_none_of_fetch_error {s : State} {cause : Cause} (h : fetch s = .error cause) :
    s.nextInstr = none :=
  Option.eq_none_iff_forall_ne_some.mpr fun i hi => by
    have hfetch := (State.nextInstr_eq_some_iff.mp hi).2
    rw [h] at hfetch
    cases hfetch

theorem State.nextInstr_eq_none_of_ended {s : State} (h : s.run ≠ .running) : s.nextInstr = none :=
  Option.eq_none_iff_forall_ne_some.mpr fun _ hi => h (State.nextInstr_eq_some_iff.mp hi).1

/-- A step executes the next instruction, takes a fault of phase 1, or finds the run ended. -/
theorem step_nextInstr_cases {s t : State} (h : step s = .next t) :
    (s.run = .running ∧ ∃ i, s.nextInstr = some i ∧ ExecCase s i t) ∨
    (s.run = .running ∧ s.nextInstr = none ∧ ∃ err, t = s.takeFault (DecodeError.toCause s.pc err)) ∨
    (s.run ≠ .running ∧ s.nextInstr = none ∧ t = s) := by
  obtain ⟨hrun, i, hfetch, hexec⟩ | ⟨hrun, cause, hfetch, rfl⟩ | ⟨hrun, rfl⟩ := step_cases h
  · exact .inl ⟨hrun, i, State.nextInstr_eq_some_iff.mpr ⟨hrun, hfetch⟩, exec_cases hexec⟩
  · obtain ⟨err, -, rfl⟩ := fetch_error.mp hfetch
    exact .inr (.inl ⟨hrun, State.nextInstr_eq_none_of_fetch_error hfetch, err, rfl⟩)
  · exact .inr (.inr ⟨hrun, State.nextInstr_eq_none_of_ended hrun, rfl⟩)

theorem State.conclude_total (s : State) (pc0 : Word) (op : Byte) (effect : Except AccessFault State) :
    ∃ t, s.conclude pc0 op effect = .next t := by
  cases effect with
  | ok t => exact ⟨t, rfl⟩
  | error fault => exact ⟨_, rfl⟩

/-- Every instruction answers a next state from every state. -/
theorem exec_total (i : Instr) (s : State) : ∃ t, exec i s = .next t := by
  cases i with
  | mv dst src => exact State.conclude_total ..
  | mvi dst v => exact State.conclude_total ..
  | mv32 dst src => exact State.conclude_total ..
  | mvi32 dst w => exact State.conclude_total ..
  | add | aptr | cmp | halt | jez | jnz | out | sub | xor => exact ⟨_, rfl⟩

theorem step_of_ended {s : State} (h : s.run ≠ .running) : step s = .next s := by
  unfold step
  split
  · next hrun => exact absurd hrun h
  · rfl
  · rfl

theorem step_total (s : State) : ∃ t, step s = .next t := by
  by_cases hrun : s.run = .running
  · cases hfetch : fetch s with
    | ok i => rw [step_of_fetch_ok hrun hfetch]; exact exec_total i s
    | error cause => exact ⟨_, step_of_fetch_error hrun hfetch⟩
  · exact ⟨s, step_of_ended hrun⟩

/-- Settles O17: every instruction answers a next state, and leaves the run state and the cause, halts or faults. -/
theorem stepIsTotal : Obligations.StepIsTotal := by
  intro s
  obtain ⟨t, hstep⟩ := step_total s
  refine ⟨t, hstep, fun hrun => ?_⟩
  obtain ⟨-, i, -, hcase⟩ | ⟨-, -, err, rfl⟩ | ⟨hended, -, -⟩ := step_nextInstr_cases hstep
  · obtain ⟨hr, hc⟩ | ⟨-, hr, hc⟩ | ⟨-, k, rfl⟩ := hcase.run_cause_cases
    · exact .inl ⟨hr.trans hrun, hc⟩
    · exact .inr (.inl ⟨hr, hc⟩)
    · exact .inr (.inr ⟨rfl, rfl⟩)
  · exact .inr (.inr ⟨rfl, rfl⟩)
  · exact absurd hrun hended

theorem run_next_of_ended {s : State} (h : s.run ≠ .running) (k : Nat) : Host.Core.run core k s = .next s := by
  induction k with
  | zero => rfl
  | succ k ih =>
    have hstep : core.step s = .next s := step_of_ended h
    simp only [Host.Core.run, hstep, ih]

/-- Settles O18: by induction on the number of steps; what the host is handed depends on the run state alone. -/
theorem endedCoreNeverChanges : Obligations.EndedCoreNeverChanges := by
  refine ⟨fun s k hrun => ⟨run_next_of_ended hrun k, ?_⟩, fun s hrun => ?_⟩
  · unfold State.hostResult
    split
    · next hr => exact absurd hr hrun
    · rfl
    · rfl
  · simp only [State.hostResult, hrun]

@[simp] theorem AccessFault.pc0_toCause (pc0 : Word) (op : Byte) (k : AccessFault) : (k.toCause pc0 op).pc0 = pc0 := by
  cases k <;> rfl

@[simp] theorem AccessFault.inPhase1_toCause (pc0 : Word) (op : Byte) (k : AccessFault) :
    (k.toCause pc0 op).inPhase1 = false := by
  cases k <;> rfl

@[simp] theorem DecodeError.pc0_toCause (pc0 : Word) (err : DecodeError) : (toCause pc0 err).pc0 = pc0 := by
  cases err <;> rfl

@[simp] theorem DecodeError.inPhase1_toCause (pc0 : Word) (err : DecodeError) : (toCause pc0 err).inPhase1 = true := by
  cases err <;> rfl

/-- Settles O19: a fault is taken by the fetch, or by an instruction after its advance of `pc`. -/
theorem faultWritesOnlyRunAndCause : Obligations.FaultWritesOnlyRunAndCause := by
  intro s t hrun hstep ht
  obtain ⟨-, i, hi, hcase⟩ | ⟨-, hnone, err, rfl⟩ | ⟨hended, -, -⟩ := step_nextInstr_cases hstep
  · obtain ⟨hr, -⟩ | ⟨-, hr, -⟩ | ⟨-, k, rfl⟩ := hcase.run_cause_cases
    · exact absurd (hrun.symm.trans (hr.symm.trans ht)) (by decide)
    · exact absurd (hr.symm.trans ht) (by decide)
    · exact ⟨_, rfl, by simp, by simp, fun _ => ⟨i, hi, rfl⟩⟩
  · exact ⟨_, rfl, by simp, fun _ => ⟨rfl, hnone⟩, by simp⟩
  · exact absurd hrun hended

/-- The instruction about to run is the one the step executes. -/
theorem execCase_of_nextInstr {s t : State} {i : Instr} (h : step s = .next t) (hi : s.nextInstr = some i) :
    ExecCase s i t := by
  obtain ⟨hrun, hfetch⟩ := State.nextInstr_eq_some_iff.mp hi
  exact exec_cases ((step_of_fetch_ok hrun hfetch).symm.trans h)

/-- A step that executes no instruction writes nothing but, on a fault of the fetch, the run state and the cause. -/
theorem eq_or_takeFault_of_nextInstr_none {s t : State} (h : step s = .next t) (hi : s.nextInstr = none) :
    t = s ∨ ∃ cause, t = s.takeFault cause := by
  obtain ⟨-, i, hsome, -⟩ | ⟨-, -, err, rfl⟩ | ⟨-, -, rfl⟩ := step_nextInstr_cases h
  · rw [hi] at hsome; cases hsome
  · exact .inr ⟨_, rfl⟩
  · exact .inl rfl

/-- Settles O20: by the ends of each instruction; a word move to `pc` faults only on a selector that names no
register. -/
theorem pcChangesInFourWays : Obligations.PcChangesInFourWays := by
  refine fun s t hstep => ⟨fun hnone => ?_, fun i hi => ?_⟩
  · obtain rfl | ⟨cause, rfl⟩ := eq_or_takeFault_of_nextInstr_none hstep hnone <;> rfl
  · cases execCase_of_nextInstr hstep hi with
    | jezTaken w hf => exact (if_pos hf).symm
    | jezPassed w hf => exact (if_neg hf).symm
    | jnzTaken w hf => exact (if_pos hf).symm
    | jnzPassed w hf => exact (if_neg (not_not_intro hf)).symm
    | mv32 r q =>
      cases r with
      | pc => exact (State.wordReg_advance s 1 q)
      | la | lb | lc | ld | ptr => rfl
    | mvi32 r w => cases r <;> rfl
    | mv32Fault dst src k hk =>
      cases dst with
      | reg r =>
        cases src with
        | reg q => cases hk
        | undef0 | undef7 => cases r <;> rfl
      | undef0 | undef7 => rfl
    | mvi32Fault dst w k hk =>
      cases dst with
      | reg r => cases hk
      | undef0 | undef7 => rfl
    | mvReg | mviReg => exact State.setByteReg_pc ..
    | add | sub | xor | cmp | halt | out | aptr | mvStore | mvFault | mviStore | mviFault => rfl

/-- Settles O21: what executing an instruction may write, read off at each component that changed. -/
theorem onlyListedInstructionsWrite : Obligations.OnlyListedInstructionsWrite := by
  intro s t hstep
  obtain ⟨-, i, hi, hcase⟩ | ⟨-, -, err, rfl⟩ | ⟨-, -, rfl⟩ := step_nextInstr_cases hstep
  · simp only [hi, Option.some.injEq, List.mem_cons, List.not_mem_nil, or_false]
    refine ⟨fun r hr => ?_, fun r hpc hr => hcase.writesWordReg hpc hr, fun hout => ?_, ?_⟩
    · simpa [WritesByteReg] using hcase.writesByteReg hr
    · by_contra hne
      exact hout (by simp [hcase.out_eq, hne])
    · obtain ⟨hr, hc⟩ | ⟨hhalt, hr, hc⟩ | ⟨-, k, rfl⟩ := hcase.run_cause_cases
      · simp [hr, hc]
      · simp [hhalt, hc]
      · simp
  · simp
  · simp

/-- Settles O22: by the stores of MV and MVI, which write one byte. -/
theorem memoryChangesOnlyAtIndirectCell : Obligations.MemoryChangesOnlyAtIndirectCell := by
  intro s t addr hstep hread
  obtain ⟨-, i, hi, hcase⟩ | ⟨-, -, err, rfl⟩ | ⟨-, -, rfl⟩ := step_nextInstr_cases hstep
  · obtain hsame | ⟨hlt, v, hwrite, hinstr⟩ := hcase.mem_cases
    · exact absurd (congrArg (·.read addr) hsame) hread
    · rw [hwrite, Memory.read_write] at hread ⊢
      have haddr : addr = s.indirectAddress := by
        by_contra hne
        exact hread (if_neg hne)
      subst haddr
      simpa [hi, State.indirectAddress] using And.intro hlt hinstr
  · exact absurd rfl hread
  · exact absurd rfl hread

end Sys2Proof.Machine

namespace Sys2Proof

/-! Which forms the bytes are long enough for (spec/60_exceptions.md R103). -/

theorem decodeForm_of_length_lt {form : Form} {op : Byte} {rest : List Byte} (h : rest.length + 1 < form.length) :
    decodeForm form op rest = .error (.truncated op) := by
  cases form with
  | aptr | mvi =>
    obtain rfl : rest = [] := List.length_eq_zero_iff.mp (Nat.lt_one_iff.mp (Nat.lt_of_succ_lt_succ h))
    rfl
  | jez | jnz | mvi32 => exact decodeImm32_of_length_lt (Nat.lt_of_succ_lt_succ h)
  | add | cmp | halt | mv | mv32 | out | sub | xor => exact absurd (Nat.lt_of_succ_lt_succ h) (Nat.not_lt_zero _)

theorem decodeForm_of_length_le {form : Form} {op : Byte} {rest : List Byte} (h : form.length ≤ rest.length + 1) :
    ∃ i tail, decodeForm form op rest = .ok (i, tail) := by
  cases form with
  | aptr | mvi =>
    obtain ⟨b, tail, rfl⟩ := List.exists_cons_of_length_pos (Nat.le_of_succ_le_succ h)
    exact ⟨_, tail, rfl⟩
  | jez | jnz | mvi32 =>
    match rest, h with
    | b0 :: b1 :: b2 :: b3 :: tail, _ => exact ⟨_, tail, rfl⟩
  | add | cmp | halt | mv | mv32 | out | sub | xor => exact ⟨_, rest, rfl⟩

theorem WordSel.bits_eq_seven_iff {sel : WordSel} : sel.bits = 7 ↔ sel = .undef7 := by
  cases sel with
  | reg r => cases r <;> decide
  | undef0 => decide
  | undef7 => decide

/-! R58's bytes by their selector fields. -/

theorem dst_of_selectorFaultByte_byte : ∀ dst src : BitVec 3,
    Machine.selectorFaultByte (moveByte 0b01 dst src) = true → dst = 0 := by decide

theorem dst_or_src_of_selectorFaultByte_word : ∀ dst src : BitVec 3,
    Machine.selectorFaultByte (moveByte 0b10 dst src) = true → dst = 0 ∨ dst = 7 ∨ src = 7 := by decide

theorem moveByte_byte_undef_eq_iff : ∀ src : BitVec 3, moveByte 0b01 0 src = 0x47 ↔ src = 7 := by decide

theorem moveByte_word_ne : ∀ dst src : BitVec 3, moveByte 0b10 dst src ≠ 0x47 := by decide

theorem ByteSel.bits_eq_seven_iff {sel : ByteSel} : sel.bits = 7 ↔ sel = .ind := by
  cases sel with
  | reg r => cases r <;> decide
  | undef => decide
  | ind => decide

theorem resolve_of_selectorFaultByte :
    ∀ op : Byte, Machine.selectorFaultByte op = true → ∃ form, resolve op = some form := by
  simp only [← Option.isSome_iff_exists]
  decide

end Sys2Proof

namespace Sys2Proof.Machine

/-! The fetch where the image ends (spec/40_step_cycle.md R71, spec/60_exceptions.md R103, R105). -/

/-- Settles O15: outside the image no byte is fetched. -/
theorem fetchOutsideImageFaults : Obligations.FetchOutsideImageFaults := fun _ => step_of_memSize_le_pc

theorem Memory.length_window (m : Memory) (size addr n : Nat) :
    (m.window size addr n).length = min n (size - addr) := by
  induction n generalizing addr with
  | zero => exact (Nat.zero_min _).symm
  | succ n ih =>
    rw [Memory.window_succ]
    split
    · rw [List.length_cons, ih]; omega
    · rw [List.length_nil]; omega

section
variable {s : State} {form : Form} (hrun : s.run = .running) (hop : resolve (s.mem.read s.pc.toNat) = some form)
include hrun hop

theorem step_of_form_truncated (hpc : s.pc.toNat < s.memSize) (hend : s.memSize < s.pc.toNat + form.length) :
    step s = .next (s.takeFault (.truncated s.pc (s.mem.read s.pc.toNat))) := by
  have hlength := form.length_le_five
  have hdecode : decode s.fetchBytes = .error (.truncated (s.mem.read s.pc.toNat)) := by
    rw [State.fetchBytes_of_pc_lt hpc, decode_of_resolve_some hop]
    exact decodeForm_of_length_lt (by rw [Memory.length_window]; omega)
  exact step_of_fetch_error hrun (fetch_error.mpr ⟨_, hdecode, rfl⟩)

/-- Where a form's bytes all lie in the image, the step executes the instruction of that form that they encode. -/
theorem step_of_form_fits (hend : s.pc.toNat + form.length ≤ s.memSize) :
    ∃ i, i.wellFormed = true ∧ i.form = form ∧ opByte i = s.mem.read s.pc.toNat ∧ step s = exec i s := by
  have hlength := form.length_le_five
  have hpos : 0 < form.length := by cases form <;> decide
  have hbytes := State.fetchBytes_of_pc_lt (s := s) (by omega)
  obtain ⟨i, tail, hform⟩ : ∃ i tail, decodeForm form (s.mem.read s.pc.toNat)
      (s.mem.window s.memSize (s.pc.toNat + 1) 4) = .ok (i, tail) :=
    decodeForm_of_length_le (by rw [Memory.length_window]; omega)
  have hdecode : decode s.fetchBytes = .ok (i, tail) := by
    rw [hbytes, decode_of_resolve_some hop, hform]
  obtain ⟨hwf, hencode⟩ := encode_of_decode hdecode
  have hfirst : s.mem.read s.pc.toNat = opByte i := (List.cons.inj (hbytes.symm.trans hencode)).1
  exact ⟨i, hwf, decodeForm_ok hform, hfirst.symm, step_of_fetch_ok hrun (fetch_ok.mpr ⟨tail, hdecode⟩)⟩

end

/-- Settles O16: the operands are read exactly where the whole form lies in the image. -/
theorem truncatedInstructionFaults : Obligations.TruncatedInstructionFaults := by
  refine fun s form hrun hpc hop => ⟨step_of_form_truncated hrun hop hpc, fun hend => ?_⟩
  obtain ⟨i, -, hform, -, hstep⟩ := step_of_form_fits hrun hop hend
  exact ⟨i, hform, hstep⟩

/-! The accessors' faults, and which selector a move faults on first (spec/60_exceptions.md R104, R106, R107). -/

theorem getByte_ind_of_lt {s : State} (h : s.indirectAddress < s.memSize) :
    getByte s .ind = .ok (s.mem.read s.indirectAddress) := if_pos h

theorem getByte_ind_of_le {s : State} (h : s.memSize ≤ s.indirectAddress) :
    getByte s .ind = .error (.indirect s.indirectAddress) := if_neg (Nat.not_lt.mpr h)

theorem setByte_ind_of_le {s : State} (h : s.memSize ≤ s.indirectAddress) (v : Byte) :
    setByte s .ind v = .error (.indirect s.indirectAddress) := if_neg (Nat.not_lt.mpr h)

theorem moveByteValue_of_getByte_ok {s : State} {src : ByteSel} {v : Byte} (h : getByte s src = .ok v)
    (dst : ByteSel) : moveByteValue s dst src = setByte s dst v := by
  rw [moveByteValue, h]

theorem moveByteValue_of_getByte_error {s : State} {src : ByteSel} {k : AccessFault} (h : getByte s src = .error k)
    (dst : ByteSel) : moveByteValue s dst src = .error k := by
  rw [moveByteValue, h]

/-- A word write faults with the selector's number where it names no register. -/
theorem setWord_undef {dst : WordSel} (h : dst = .undef0 ∨ dst = .undef7) (s : State) (v : Word) :
    setWord s dst v = .error (.wordSpace dst.bits) := by
  obtain rfl | rfl := h <;> rfl

theorem moveWordValue_undef {dst src : WordSel} (h : dst = .undef0 ∨ dst = .undef7 ∨ src = .undef7) (s : State) :
    ∃ sel, moveWordValue s dst src = .error (.wordSpace sel) := by
  cases src with
  | reg r =>
    have hdst : dst = .undef0 ∨ dst = .undef7 := by simpa using h
    exact ⟨_, setWord_undef hdst s (s.wordReg r)⟩
  | undef0 | undef7 => exact ⟨_, rfl⟩

theorem moveByteValue_undef {src : ByteSel} (hsrc : src ≠ .undef) (s : State) :
    ∃ k : AccessFault, moveByteValue s .undef src = .error k ∧ ∀ pc0 op, (k.toCause pc0 op).faultClass =
      if src = .ind ∧ s.memSize ≤ s.indirectAddress then .memoryBounds else .register := by
  cases src with
  | undef => exact absurd rfl hsrc
  | reg r => exact ⟨.byteSpace 0, rfl, fun _ _ => rfl⟩
  | ind =>
    by_cases hlt : s.indirectAddress < s.memSize
    · exact ⟨_, moveByteValue_of_getByte_ok (getByte_ind_of_lt hlt) .undef, fun _ _ =>
        (if_neg fun h => Nat.not_lt.mpr h.2 hlt).symm⟩
    · have hle := Nat.not_lt.mp hlt
      exact ⟨_, moveByteValue_of_getByte_error (getByte_ind_of_le hle) .undef, fun _ _ => (if_pos ⟨rfl, hle⟩).symm⟩

/-- An instruction whose first byte R58 lists faults past its bytes, by the class R58 and R107 give. -/
theorem exec_of_selectorFaultByte {i : Instr} (hwf : i.wellFormed = true) (hop : selectorFaultByte (opByte i) = true)
    (s : State) :
    ∃ k : AccessFault, exec i s = .next ((s.advance i.length).takeFault (k.toCause s.pc (opByte i))) ∧
      (k.toCause s.pc (opByte i)).faultClass =
        if opByte i = 0x47 ∧ s.memSize ≤ s.indirectAddress then .memoryBounds else .register := by
  cases i with
  | mvi dst v =>
    obtain rfl := ByteSel.bits_eq_zero_iff.mp (dst_of_selectorFaultByte_byte dst.bits 0 hop)
    exact ⟨.byteSpace 0, exec_of_case (.mviFault .undef v _ rfl), rfl⟩
  | mv dst src =>
    obtain rfl := ByteSel.bits_eq_zero_iff.mp (dst_of_selectorFaultByte_byte dst.bits src.bits hop)
    obtain ⟨k, hk, hclass⟩ := moveByteValue_undef (Instr.wellFormed_mv.mp hwf) (s.advance 1)
    refine ⟨k, exec_of_case (.mvFault .undef src k hk), ?_⟩
    have h47 : opByte (.mv .undef src) = 0x47 ↔ src = .ind :=
      (moveByte_byte_undef_eq_iff src.bits).trans ByteSel.bits_eq_seven_iff
    exact (hclass _ _).trans (if_congr (and_congr_left' h47.symm) rfl rfl)
  | mvi32 dst w =>
    have hdst : dst = .undef0 ∨ dst = .undef7 := by
      obtain h | h | h := dst_or_src_of_selectorFaultByte_word dst.bits 0 hop
      · exact .inl (WordSel.bits_eq_zero_iff.mp h)
      · exact .inr (WordSel.bits_eq_seven_iff.mp h)
      · exact absurd h (by decide)
    refine ⟨_, exec_of_case (.mvi32Fault dst w _ (setWord_undef hdst _ w)), ?_⟩
    exact (if_neg fun h => moveByte_word_ne dst.bits 0 h.1).symm
  | mv32 dst src =>
    have hsel : dst = .undef0 ∨ dst = .undef7 ∨ src = .undef7 := by
      simpa only [WordSel.bits_eq_zero_iff, WordSel.bits_eq_seven_iff] using
        dst_or_src_of_selectorFaultByte_word dst.bits src.bits hop
    obtain ⟨sel, hk⟩ := moveWordValue_undef hsel (s.advance 1)
    refine ⟨_, exec_of_case (.mv32Fault dst src _ hk), ?_⟩
    exact (if_neg fun h => moveByte_word_ne dst.bits src.bits h.1).symm
  | add | aptr | cmp | halt | jez | jnz | out | sub | xor => cases hop

/-- Settles O12: the listed bytes are the moves with an undefined selector, whose accessors fault after the advance. -/
theorem selectorFaultBytesFault : Obligations.SelectorFaultBytesFault := by
  intro op hsel
  obtain ⟨form, hop⟩ := resolve_of_selectorFaultByte op hsel
  refine ⟨form, hop, ?_⟩
  rintro s hrun hend rfl
  obtain ⟨i, hwf, rfl, hfirst, hstep⟩ := step_of_form_fits hrun hop hend
  rw [← hfirst] at hsel ⊢
  obtain ⟨k, hexec, hclass⟩ := exec_of_selectorFaultByte hwf hsel s
  exact ⟨_, _, hstep.trans hexec, rfl, AccessFault.pc0_toCause .., hclass⟩

/-! Construction and reset (spec/70_reset_and_hazards.md R121). -/

theorem State.byteReg_resetWith (size : Nat) (mem : Memory) (r : ByteReg) :
    (State.resetWith size mem).byteReg r = 0 := by cases r <;> rfl

theorem State.wordReg_resetWith (size : Nat) (mem : Memory) (r : WordReg) :
    (State.resetWith size mem).wordReg r = 0 := by cases r <;> rfl

/-- Reset with a canonical memory inside an image of R4's range meets the invariant. -/
theorem State.inv_resetWith {size : Nat} {mem : Memory} (hwf : mem.wf = true) (hwithin : mem.within size = true)
    (hmin : Config.minMemSize ≤ size) (hmax : size ≤ Config.maxMemSize) : (State.resetWith size mem).Inv :=
  ⟨hwf, hwithin, hmin, hmax, by simp [State.resetWith]⟩

/-- Settles O1: the registers are those of reset with any memory, and an empty list reads 0 everywhere. -/
theorem resetLeavesListedValues : Obligations.ResetLeavesListedValues :=
  ⟨rfl, rfl, rfl, State.byteReg_resetWith _ _, State.wordReg_resetWith _ _, rfl, fun _ => rfl⟩

/-- Settles O2: the empty list is canonical and names no address. -/
theorem resetMeetsInvariant : Obligations.ResetMeetsInvariant :=
  State.inv_resetWith State.reset_mem_wf rfl (by decide) (by decide)

/-- The list made from an image names only the image's addresses. -/
theorem Memory.within_ofImageAt (addr : Nat) (image : List Byte) :
    (Memory.ofImageAt addr image).within (addr + image.length) = true := by
  induction image generalizing addr with
  | nil => rfl
  | cons v rest ih =>
    have hrest := ih (addr + 1)
    rw [Nat.add_assoc, Nat.add_comm 1] at hrest
    rw [Memory.ofImageAt]
    split
    · exact hrest
    · simp only [Memory.within, List.all_cons, Bool.and_eq_true, decide_eq_true_eq]
      exact ⟨Nat.lt_add_of_pos_right (Nat.succ_pos _), hrest⟩

/-- Settles O4: a core in R4's range is reset with its image, whose list is canonical and reads back as the image. -/
theorem constructionLoadsImage : Obligations.ConstructionLoadsImage := by
  refine fun image => ⟨fun ⟨hmin, hmax⟩ => ?_, fun hlength => if_neg ?_⟩
  · refine ⟨_, State.construct_eq_some.mpr ⟨⟨hmin, hmax⟩, rfl⟩, rfl, fun k hk => ?_, State.byteReg_resetWith _ _,
      State.wordReg_resetWith _ _, rfl, rfl, rfl, State.inv_resetWith (Memory.wf_ofImage image) ?_ hmin hmax⟩
    · exact (congrArg _ (Nat.zero_add k).symm).trans (Memory.read_ofImageAt 0 image k hk)
    · exact (congrArg _ (Nat.zero_add _).symm).trans (Memory.within_ofImageAt 0 image)
  · rw [Config.minMemSize, Config.maxMemSize]
    omega

end Sys2Proof.Machine

namespace Sys2Proof.Machine

/-! What a store and a placed word are to the next fetch (spec/20_memory.md R44). -/

theorem State.head?_fetchBytes (s : State) :
    s.fetchBytes.head? = if s.pc.toNat < s.memSize then some (s.mem.read s.pc.toNat) else none := by
  split
  · next h => rw [State.fetchBytes_of_pc_lt h, List.head?_cons]
  · next h => rw [State.fetchBytes_of_memSize_le_pc (Nat.not_lt.mp h), List.head?_nil]

/-- MVI, and MV from a register, store to the indirect cell where it lies inside the image. -/
theorem exec_storeByte {s : State} {i : Instr} {v : Byte} (hlt : s.indirectAddress < s.memSize)
    (hi : i = .mvi .ind v ∨ ∃ r, i = .mv .ind (.reg r) ∧ v = s.byteReg r) :
    exec i s = .next ((s.advance i.length).storeByte s.indirectAddress v) := by
  obtain rfl | ⟨r, rfl, rfl⟩ := hi
  · exact exec_of_case (.mviStore v hlt)
  · exact exec_of_case (.mvStore (.reg r) (s.byteReg r) (congrArg _ (State.byteReg_advance s 1 r)) hlt)

/-- Settles O23: the first byte fetched is read from the memory that the store left. -/
theorem storeIsSeenByNextFetch : Obligations.StoreIsSeenByNextFetch := by
  refine fun s i v hlt hi => ⟨_, exec_storeByte hlt hi, rfl, fun pc' => ?_⟩
  simp only [State.head?_fetchBytes, State.storeByte_mem, State.storeByte_memSize, State.advance_mem,
    State.advance_memSize, Memory.read_write, State.indirectAddress]

theorem Memory.read_writeBytes_of_lt (m : Memory) (bytes : List Byte) {addr x : Nat} (h : x < addr) :
    (m.writeBytes addr bytes).read x = m.read x := by
  induction bytes generalizing m addr with
  | nil => rfl
  | cons v rest ih =>
    rw [Memory.writeBytes, ih _ (Nat.lt_succ_of_lt h), Memory.read_write, if_neg (Nat.ne_of_lt h)]

/-- Bytes written from an address up read back in their order. -/
theorem Memory.read_writeBytes (m : Memory) (addr : Nat) (bytes : List Byte) (k : Nat) (h : k < bytes.length) :
    (m.writeBytes addr bytes).read (addr + k) = bytes[k] := by
  induction bytes generalizing m addr k with
  | nil => exact absurd h (Nat.not_lt_zero k)
  | cons v rest ih =>
    rw [Memory.writeBytes]
    cases k with
    | zero =>
      have hv : (m.write addr v).read addr = v := (Memory.read_write m addr v addr).trans (if_pos rfl)
      exact (Memory.read_writeBytes_of_lt _ rest addr.lt_add_one).trans hv
    | succ j =>
      rw [← Nat.add_assoc, Nat.add_right_comm]
      exact ih _ (addr + 1) j (Nat.lt_of_succ_lt_succ h)

/-- The bytes placed are the bytes the next step fetches. -/
theorem State.fetchBytes_withFetchWord (s : State) (nbits w : Nat) :
    (s.withFetchWord nbits w).fetchBytes = tableBytes nbits w := by
  have hholds : (s.withFetchWord nbits w).Holds (s.withFetchWord nbits w).pc.toNat (tableBytes nbits w) :=
    ⟨le_max_right _ _, fun k hk => Memory.read_writeBytes ..⟩
  exact (Memory.window_of_holds hholds 0).trans (List.append_nil _)

/-- Settles O24: the placed core is RUNNING and fetches the placed bytes. -/
theorem placedWordRunsNext : Obligations.PlacedWordRunsNext := by
  intro s nbits w i h
  unfold decodeTableWord at h
  split at h
  · next j rest hdecode =>
    cases h
    rw [← State.fetchBytes_withFetchWord s nbits w] at hdecode
    exact step_of_fetch_ok rfl (fetch_ok.mpr ⟨rest, hdecode⟩)
  · cases h

/-! What no instruction reads. Two states that differ in components no instruction reads go to states that differ in
them alone: one argument over the instructions, for any such relation between states. -/

/-- A relation between states that agree on all that an instruction other than MV32 reads, and that every operation on
the state keeps. -/
structure Unread (R : State → State → Prop) : Prop where
  byteReg {s s'} : R s s' → ∀ r, s'.byteReg r = s.byteReg r
  ptr {s s'} : R s s' → s'.ptr = s.ptr
  pc {s s'} : R s s' → s'.pc = s.pc
  mem {s s'} : R s s' → s'.mem = s.mem
  memSize {s s'} : R s s' → s'.memSize = s.memSize
  advance {s s'} : R s s' → ∀ n, R (s.advance n) (s'.advance n)
  setByteReg {s s'} : R s s' → ∀ r v, R (s.setByteReg r v) (s'.setByteReg r v)
  setWordReg {s s'} : R s s' → ∀ r v, R (s.setWordReg r v) (s'.setWordReg r v)
  storeByte {s s'} : R s s' → ∀ addr v, R (s.storeByte addr v) (s'.storeByte addr v)
  emit {s s'} : R s s' → ∀ v, R (s.emit v) (s'.emit v)
  halt {s s'} : R s s' → R s.halt s'.halt
  takeFault {s s'} : R s s' → ∀ cause, R (s.takeFault cause) (s'.takeFault cause)

/-- Effects that fault alike or end in related states. -/
inductive EffectRel (R : State → State → Prop) : Except AccessFault State → Except AccessFault State → Prop where
  | ok {t t' : State} : R t t' → EffectRel R (.ok t) (.ok t')
  | error (k : AccessFault) : EffectRel R (.error k) (.error k)

/-- Where one outcome is a next state, so is the other, and the two are related. -/
def OutcomeRel (R : State → State → Prop) (o o' : Host.Outcome State Fault Refusal) : Prop :=
  ∀ t, o = .next t → ∃ t', o' = .next t' ∧ R t t'

theorem OutcomeRel.next {R : State → State → Prop} {t t' : State} (h : R t t') :
    OutcomeRel R (.next t) (.next t') := by
  rintro _ ⟨⟩
  exact ⟨t', rfl, h⟩

section
variable {R : State → State → Prop} (hR : Unread R) {s s' : State} (h : R s s')
include hR h

theorem Unread.indirectAddress : s'.indirectAddress = s.indirectAddress := by
  have hc : s'.c = s.c := hR.byteReg h .c
  rw [State.indirectAddress, hR.ptr h, hc, State.indirectAddress]

theorem Unread.getByte (sel : ByteSel) : getByte s' sel = getByte s sel := by
  cases sel with
  | reg r => exact congrArg _ (hR.byteReg h r)
  | undef => rfl
  | ind => simp only [Machine.getByte, hR.indirectAddress h, hR.memSize h, hR.mem h]

theorem Unread.setByte (sel : ByteSel) (v : Byte) : EffectRel R (setByte s sel v) (setByte s' sel v) := by
  cases sel with
  | reg r => exact .ok (hR.setByteReg h r v)
  | undef => exact .error _
  | ind =>
    simp only [Machine.setByte, hR.indirectAddress h, hR.memSize h]
    split
    · exact .ok (hR.storeByte h _ v)
    · exact .error _

theorem Unread.setWord (sel : WordSel) (v : Word) : EffectRel R (setWord s sel v) (setWord s' sel v) := by
  cases sel with
  | reg r => exact .ok (hR.setWordReg h r v)
  | undef0 | undef7 => exact .error _

theorem Unread.moveByteValue (dst src : ByteSel) :
    EffectRel R (moveByteValue s dst src) (moveByteValue s' dst src) := by
  rw [Machine.moveByteValue, Machine.moveByteValue, hR.getByte h]
  cases Machine.getByte s src with
  | ok v => exact hR.setByte h dst v
  | error k => exact .error k

theorem Unread.moveWordValue (hword : ∀ r, s'.wordReg r = s.wordReg r) (dst src : WordSel) :
    EffectRel R (moveWordValue s dst src) (moveWordValue s' dst src) := by
  cases src with
  | reg r =>
    rw [Machine.moveWordValue, Machine.moveWordValue, getWord, getWord, hword]
    exact hR.setWord h dst _
  | undef0 | undef7 => exact .error _

theorem Unread.conclude {effect effect' : Except AccessFault State} (heffect : EffectRel R effect effect')
    (pc0 : Word) (op : Byte) : OutcomeRel R (s.conclude pc0 op effect) (s'.conclude pc0 op effect') := by
  cases heffect with
  | ok ht => exact .next ht
  | error k => exact .next (hR.takeFault h _)

theorem Unread.aluWrite (i : Instr) (op : Byte → Byte → Byte) : OutcomeRel R (aluWrite i op s) (aluWrite i op s') := by
  have ha : s'.a = s.a := hR.byteReg h .a
  have hb : s'.b = s.b := hR.byteReg h .b
  simp only [Machine.aluWrite, State.advance_a, State.advance_b, ha, hb]
  exact .next (hR.setByteReg (hR.advance h _) .a _)

theorem Unread.branch (i : Instr) (taken : Bool) (target : Word) :
    OutcomeRel R (branch i taken target s) (branch i taken target s') := by
  cases taken with
  | true => exact .next (hR.setWordReg (hR.advance h _) .pc target)
  | false => exact .next (hR.advance h _)

/-- Related states go to related states by every instruction, by MV32 if they agree on the word registers too. -/
theorem Unread.exec (i : Instr) (hword : (∃ dst src, i = .mv32 dst src) → ∀ r, s'.wordReg r = s.wordReg r) :
    OutcomeRel R (exec i s) (exec i s') := by
  have ha : s'.a = s.a := hR.byteReg h .a
  have hb : s'.b = s.b := hR.byteReg h .b
  have hf : s'.f = s.f := hR.byteReg h .f
  have hadvance := hR.advance h i.length
  cases i with
  | add | sub | xor => exact hR.aluWrite h _ _
  | cmp =>
    simp only [Machine.exec, execCmp, State.advance_a, State.advance_b, ha, hb]
    exact .next (hR.setByteReg hadvance .f _)
  | halt => exact .next (hR.halt hadvance)
  | out =>
    simp only [Machine.exec, execOut, State.advance_a, ha]
    exact .next (hR.emit hadvance _)
  | aptr v =>
    simp only [Machine.exec, execAptr, State.advance_ptr, hR.ptr h]
    exact .next (hR.setWordReg hadvance .ptr _)
  | jez target =>
    simp only [Machine.exec, execJez, hf]
    exact hR.branch h _ _ target
  | jnz target =>
    simp only [Machine.exec, execJnz, hf]
    exact hR.branch h _ _ target
  | mv dst src =>
    simp only [Machine.exec, execMv, hR.pc h]
    exact hR.conclude hadvance (hR.moveByteValue hadvance dst src) _ _
  | mvi dst v =>
    simp only [Machine.exec, execMvi, hR.pc h]
    exact hR.conclude hadvance (hR.setByte hadvance dst v) _ _
  | mv32 dst src =>
    simp only [Machine.exec, execMv32, hR.pc h]
    refine hR.conclude hadvance (hR.moveWordValue hadvance (fun r => ?_) dst src) _ _
    rw [State.wordReg_advance, State.wordReg_advance, hR.pc h, hword ⟨dst, src, rfl⟩]
  | mvi32 dst w =>
    simp only [Machine.exec, execMvi32, hR.pc h]
    exact hR.conclude hadvance (hR.setWord hadvance dst w) _ _

end

/-- `s'` is `s` with the bytes of `before` put before its output. -/
def PrependsOut (before : List Byte) (s s' : State) : Prop := s' = { s with out := before ++ s.out }

theorem unread_prependsOut (before : List Byte) : Unread (PrependsOut before) where
  byteReg := by rintro s _ rfl r; cases r <;> rfl
  ptr := by rintro s _ rfl; rfl
  pc := by rintro s _ rfl; rfl
  mem := by rintro s _ rfl; rfl
  memSize := by rintro s _ rfl; rfl
  advance := by rintro s _ rfl n; rfl
  setByteReg := by rintro s _ rfl r v; cases r <;> rfl
  setWordReg := by rintro s _ rfl r v; cases r <;> rfl
  storeByte := by rintro s _ rfl addr v; rfl
  emit := by rintro s _ rfl v; simp only [PrependsOut, State.emit, List.append_assoc]
  halt := by rintro s _ rfl; rfl
  takeFault := by rintro s _ rfl cause; rfl

/-- Settles O25: the bytes put before the output are in nothing an instruction or the fetch reads. -/
theorem outputIsNeverRead : Obligations.OutputIsNeverRead := by
  intro s t before hstep
  have hR := unread_prependsOut before
  have h : PrependsOut before s { s with out := before ++ s.out } := rfl
  obtain ⟨hrun, i, hfetch, hexec⟩ | ⟨hrun, cause, hfetch, rfl⟩ | ⟨hrun, rfl⟩ := step_cases hstep
  · have hword (r : WordReg) : ({ s with out := before ++ s.out } : State).wordReg r = s.wordReg r := by
      cases r <;> rfl
    obtain ⟨_, hexec', rfl⟩ := hR.exec h i (fun _ => hword) t hexec
    exact (step_of_fetch_ok (s := { s with out := before ++ s.out }) hrun hfetch).trans hexec'
  · exact step_of_fetch_error hrun hfetch
  · exact step_of_ended hrun

/-- `s'` is `s` with another run state and cause. -/
def DiffersInRunAndCause (s s' : State) : Prop := ∃ run cause, s' = { s with run := run, cause := cause }

theorem unread_differsInRunAndCause : Unread DiffersInRunAndCause where
  byteReg := by rintro s _ ⟨run, cause, rfl⟩ r; cases r <;> rfl
  ptr := by rintro s _ ⟨run, cause, rfl⟩; rfl
  pc := by rintro s _ ⟨run, cause, rfl⟩; rfl
  mem := by rintro s _ ⟨run, cause, rfl⟩; rfl
  memSize := by rintro s _ ⟨run, cause, rfl⟩; rfl
  advance := by rintro s _ ⟨run, cause, rfl⟩ n; exact ⟨run, cause, rfl⟩
  setByteReg := by rintro s _ ⟨run, cause, rfl⟩ r v; exact ⟨run, cause, by cases r <;> rfl⟩
  setWordReg := by rintro s _ ⟨run, cause, rfl⟩ r v; exact ⟨run, cause, by cases r <;> rfl⟩
  storeByte := by rintro s _ ⟨run, cause, rfl⟩ addr v; exact ⟨run, cause, rfl⟩
  emit := by rintro s _ ⟨run, cause, rfl⟩ v; exact ⟨run, cause, rfl⟩
  halt := by rintro s _ ⟨run, cause, rfl⟩; exact ⟨.halted, cause, rfl⟩
  takeFault := by rintro s _ ⟨run, cause, rfl⟩ k; exact ⟨.faulted, some k, rfl⟩

/-- Settles O26: the run state and the cause are in nothing an instruction reads. -/
theorem runStateAndCauseAreNeverRead : Obligations.RunStateAndCauseAreNeverRead := by
  intro i s t run cause hexec
  have hword (r : WordReg) : ({ s with run := run, cause := cause } : State).wordReg r = s.wordReg r := by
    cases r <;> rfl
  obtain ⟨_, hexec', run', cause', rfl⟩ :=
    unread_differsInRunAndCause.exec ⟨run, cause, rfl⟩ i (fun _ => hword) t hexec
  exact ⟨_, hexec', rfl⟩

/-- `s'` is `s` with other general words. -/
def DiffersInGeneralWords (s s' : State) : Prop :=
  ∃ la lb lc ld, s' = { s with la := la, lb := lb, lc := lc, ld := ld }

theorem differsInGeneralWords_iff {s s' : State} : DiffersInGeneralWords s s' ↔ s.AgreeButGeneralWords s' := by
  constructor
  · rintro ⟨la, lb, lc, ld, rfl⟩
    rfl
  · exact fun h => ⟨_, _, _, _, h⟩

theorem unread_differsInGeneralWords : Unread DiffersInGeneralWords where
  byteReg := by rintro s _ ⟨la, lb, lc, ld, rfl⟩ r; cases r <;> rfl
  ptr := by rintro s _ ⟨la, lb, lc, ld, rfl⟩; rfl
  pc := by rintro s _ ⟨la, lb, lc, ld, rfl⟩; rfl
  mem := by rintro s _ ⟨la, lb, lc, ld, rfl⟩; rfl
  memSize := by rintro s _ ⟨la, lb, lc, ld, rfl⟩; rfl
  advance := by rintro s _ ⟨la, lb, lc, ld, rfl⟩ n; exact ⟨la, lb, lc, ld, rfl⟩
  setByteReg := by rintro s _ ⟨la, lb, lc, ld, rfl⟩ r v; exact ⟨la, lb, lc, ld, by cases r <;> rfl⟩
  setWordReg := by rintro s _ ⟨la, lb, lc, ld, rfl⟩ r v; cases r <;> exact ⟨_, _, _, _, rfl⟩
  storeByte := by rintro s _ ⟨la, lb, lc, ld, rfl⟩ addr v; exact ⟨la, lb, lc, ld, rfl⟩
  emit := by rintro s _ ⟨la, lb, lc, ld, rfl⟩ v; exact ⟨la, lb, lc, ld, rfl⟩
  halt := by rintro s _ ⟨la, lb, lc, ld, rfl⟩; exact ⟨la, lb, lc, ld, rfl⟩
  takeFault := by rintro s _ ⟨la, lb, lc, ld, rfl⟩ k; exact ⟨la, lb, lc, ld, rfl⟩

/-- Settles O27: of the instructions only MV32 reads a word register other than `ptr` and `pc`. -/
theorem generalWordsAreReadOnlyByMoves : Obligations.GeneralWordsAreReadOnlyByMoves := by
  intro i s s' t h hmv32 hexec
  have hword : (∃ dst src, i = .mv32 dst src) → ∀ r, s'.wordReg r = s.wordReg r :=
    fun ⟨dst, src, hi⟩ => absurd hi (hmv32 dst src)
  obtain ⟨t', hexec', ht⟩ := unread_differsInGeneralWords.exec (differsInGeneralWords_iff.mpr h) i hword t hexec
  exact ⟨t', hexec', differsInGeneralWords_iff.mp ht⟩

end Sys2Proof.Machine

namespace Sys2Proof.Machine

/-! Frames: what each family leaves unchanged, from what executing an instruction can change. -/

section
variable {s t : State} {i : Instr} (h : ExecCase s i t)
include h

theorem ExecCase.byteReg_eq {r : ByteReg} (hi : ¬ WritesByteReg i r) : t.byteReg r = s.byteReg r := by
  by_contra hne
  exact hi (h.writesByteReg hne)

theorem ExecCase.wordReg_eq {r : WordReg} (hpc : r ≠ .pc) (hi : ¬ WritesWordReg i r) : t.wordReg r = s.wordReg r := by
  by_contra hne
  exact hi (h.writesWordReg hpc hne)

/-- An instruction leaves each byte of memory that it does not store to by MV or MVI. -/
theorem ExecCase.read_eq {x : Nat}
    (hi : (∃ src, i = .mv .ind src) ∨ (∃ v, i = .mvi .ind v) → x ≠ s.indirectAddress) :
    t.mem.read x = s.mem.read x := by
  obtain hsame | ⟨-, v, hwrite, hinstr⟩ := h.mem_cases
  · rw [hsame]
  · rw [hwrite, Memory.read_write, if_neg (hi (hinstr.imp_right fun hv => ⟨v, hv⟩))]

theorem ExecCase.out_eq_of_ne (hi : i ≠ .out) : t.out = s.out := by
  rw [h.out_eq, if_neg hi, List.append_nil]

theorem ExecCase.run_cause_eq_or_faulted (hi : i ≠ .halt) :
    (t.run = s.run ∧ t.cause = s.cause) ∨ (t.run = .faulted ∧ t.cause.isSome = true) := by
  obtain hsame | ⟨hhalt, -⟩ | ⟨-, k, rfl⟩ := h.run_cause_cases
  · exact .inl hsame
  · exact absurd hhalt hi
  · exact .inr ⟨rfl, rfl⟩

theorem ExecCase.cause_eq (hi : i.form ∉ moveForms) : t.cause = s.cause := by
  obtain ⟨-, hc⟩ | ⟨-, -, hc⟩ | ⟨hmove, -⟩ := h.run_cause_cases
  · exact hc
  · exact hc
  · exact absurd hmove hi

theorem ExecCase.run_eq_of_ne (hhalt : i ≠ .halt) (hi : i.form ∉ moveForms) : t.run = s.run := by
  obtain ⟨hr, -⟩ | ⟨heq, -⟩ | ⟨hmove, -⟩ := h.run_cause_cases
  · exact hr
  · exact absurd heq hhalt
  · exact absurd hmove hi

end

/-- Settles O45: the ALU instructions write one byte register each, and do not fault. -/
theorem aluFrame : Obligations.AluFrame := by
  intro i s t hi hexec
  have h := exec_cases hexec
  simp only [List.mem_cons, List.not_mem_nil, or_false] at hi
  have hmove : i.form ∉ moveForms := by
    obtain rfl | rfl | rfl | rfl := hi <;> decide
  obtain rfl | rfl | rfl | rfl := hi
  all_goals
    refine ⟨fun r hr => h.byteReg_eq ?_, fun r hpc => h.wordReg_eq hpc ?_, fun x => h.read_eq ?_, h.memSize_eq,
      h.out_eq_of_ne (by decide), h.run_eq_of_ne (by decide) hmove, h.cause_eq hmove⟩
    · simpa [WritesByteReg] using hr
    · simp [WritesWordReg]
    · simp

/-- Settles O46: none of the five writes a byte register or memory or faults, and only APTR writes a word register. -/
theorem controlFrame : Obligations.ControlFrame := by
  intro i s t hi hexec
  have h := exec_cases hexec
  have hmove : i.form ∉ moveForms := by
    obtain rfl | rfl | ⟨v, rfl⟩ | ⟨w, rfl⟩ | ⟨w, rfl⟩ := hi <;> simp [moveForms, Instr.form]
  refine ⟨fun r => h.byteReg_eq ?_, fun r hpc hptr => h.wordReg_eq hpc ?_, fun x => h.read_eq ?_, h.memSize_eq,
    h.cause_eq hmove, h.out_eq_of_ne, fun hhalt => h.run_eq_of_ne hhalt hmove⟩
  · obtain rfl | rfl | ⟨v, rfl⟩ | ⟨w, rfl⟩ | ⟨w, rfl⟩ := hi <;> simp [WritesByteReg]
  · rintro (⟨rfl, v, rfl⟩ | ⟨src, rfl⟩ | ⟨w, rfl⟩)
    · exact hptr rfl v rfl
    · simp at hi
    · simp at hi
  · rintro (⟨src, rfl⟩ | ⟨v, rfl⟩) <;> simp at hi

/-- Settles O47: MV and MVI write their destination alone, which is a byte register or the indirect cell. -/
theorem byteMoveFrame : Obligations.ByteMoveFrame := by
  intro i dst s t hi hexec
  have h := exec_cases hexec
  obtain ⟨src, rfl⟩ | ⟨v, rfl⟩ := hi
  all_goals
    refine ⟨fun r hr => h.byteReg_eq ?_, fun r hpc => h.wordReg_eq hpc ?_, fun x hx => h.read_eq ?_, h.memSize_eq,
      h.out_eq_of_ne (by simp), h.run_cause_eq_or_faulted (by simp)⟩
    · simpa [WritesByteReg] using hr
    · simp [WritesWordReg]
    · simpa using hx

/-- Settles O48: MV32 and MVI32 write their destination alone, which is a word register. -/
theorem wordMoveFrame : Obligations.WordMoveFrame := by
  intro i dst s t hi hexec
  have h := exec_cases hexec
  obtain ⟨src, rfl⟩ | ⟨w, rfl⟩ := hi
  all_goals
    refine ⟨fun r => h.byteReg_eq ?_, fun r hpc hr => h.wordReg_eq hpc ?_, fun x => h.read_eq ?_, h.memSize_eq,
      h.out_eq_of_ne (by simp), h.run_cause_eq_or_faulted (by simp)⟩
    · simp [WritesByteReg]
    · simpa [WritesWordReg] using hr
    · simp

/-! The state each byte move leaves (spec/44_moves.md R92, R94). -/

/-- A byte register written after the advance: the other registers stay, and no other component but `pc` changes. -/
theorem State.setByteReg_advance (s : State) (n : Nat) (dst : ByteReg) (v : Byte) :
    let t := (s.advance n).setByteReg dst v
    (∀ r, t.byteReg r = if r = dst then v else s.byteReg r) ∧
      t = { s with a := t.a, b := t.b, c := t.c, d := t.d, e := t.e, f := t.f, pc := s.pc + BitVec.ofNat 32 n } := by
  refine ⟨fun r => ?_, by cases dst <;> rfl⟩
  rw [State.byteReg_setByteReg, State.byteReg_advance]
  exact if_congr eq_comm rfl rfl

/-- A byte stored at the indirect cell after the advance: no other byte and no other component but `pc` changes. -/
theorem State.storeByte_advance (s : State) (n addr : Nat) (v : Byte) :
    let t := (s.advance n).storeByte addr v
    (∀ x, t.mem.read x = if x = addr then v else s.mem.read x) ∧
      t = { s with mem := t.mem, pc := s.pc + BitVec.ofNat 32 n } :=
  ⟨Memory.read_write s.mem addr v, rfl⟩

theorem getByte_advance_reg (s : State) (n : Nat) (r : ByteReg) : getByte (s.advance n) (.reg r) = .ok (s.byteReg r) :=
  congrArg _ (State.byteReg_advance s n r)

/-- Settles O37: the source register is read and the destination register written. -/
theorem mvCopiesRegister : Obligations.MvCopiesRegister := fun dst src s =>
  ⟨_, exec_of_case (.mvReg dst (.reg src) _ (getByte_advance_reg s 1 src)), State.setByteReg_advance s 1 dst _⟩

/-- Settles O38: the cell's address is formed before the destination register is written. -/
theorem mvLoadsIndirectByte : Obligations.MvLoadsIndirectByte := fun dst s hlt =>
  ⟨_, exec_of_case (.mvReg dst .ind _ (getByte_ind_of_lt (s := s.advance 1) hlt)), State.setByteReg_advance s 1 dst _⟩

theorem Memory.read_write_self (m : Memory) (addr x : Nat) : (m.write addr (m.read addr)).read x = m.read x := by
  rw [Memory.read_write, ite_eq_right_iff]
  rintro rfl
  rfl

/-- Writing the byte that stands at an address leaves a canonical list as it is. -/
theorem Memory.write_read_self {m : Memory} (hm : m.wf = true) (addr : Nat) : m.write addr (m.read addr) = m :=
  Memory.ext_of_wfFrom (Memory.wf_write hm addr _) hm (Memory.read_write_self m addr)

/-- Settles O39: the store writes one byte, and the cell's own byte is the one already there. -/
theorem mvStoresIndirectByte : Obligations.MvStoresIndirectByte := by
  refine fun s hlt => ⟨fun src => ?_, ?_⟩
  · exact ⟨_, exec_storeByte hlt (.inr ⟨src, rfl, rfl⟩), State.storeByte_advance s 1 _ _⟩
  · have hload : getByte (s.advance 1) .ind = .ok (s.mem.read s.indirectAddress) := getByte_ind_of_lt hlt
    exact ⟨_, exec_of_case (.mvStore .ind _ hload hlt), Memory.read_write_self s.mem _,
      fun hwf => Memory.write_read_self hwf _, rfl⟩

/-- Settles O40: the source is read first, and only then is the destination resolved. -/
theorem mvFaultsInOrder : Obligations.MvFaultsInOrder := by
  intro dst src s
  refine ⟨?_, fun hsrc hind hdst => ?_, fun hsrc hind hdst hle => ?_⟩
  · rintro rfl hle
    have hload := getByte_ind_of_le (s := s.advance 1) hle
    exact exec_of_case (.mvFault dst .ind _ (moveByteValue_of_getByte_error hload dst))
  · subst hdst
    have hload : ∃ v, getByte (s.advance 1) src = .ok v := by
      cases src with
      | undef => exact absurd rfl hsrc
      | reg r => exact ⟨_, rfl⟩
      | ind => exact ⟨_, getByte_ind_of_lt (hind rfl)⟩
    obtain ⟨v, hv⟩ := hload
    exact exec_of_case (.mvFault .undef src (.byteSpace 0) (moveByteValue_of_getByte_ok hv .undef))
  · subst hdst
    cases src with
    | undef => exact absurd rfl hsrc
    | ind => exact absurd rfl hind
    | reg r => exact exec_of_case (.mvFault .ind (.reg r) _ (setByte_ind_of_le (s := s.advance 1) hle _))

/-- Settles O41: the destination is written or faults, after the advance past both bytes. -/
theorem mviWritesImmediate : Obligations.MviWritesImmediate := by
  refine fun imm8 s => ⟨fun dst => ?_, fun hlt => ?_, fun hle => ?_, ?_⟩
  · exact ⟨_, exec_of_case (.mviReg dst imm8), State.setByteReg_advance s 2 dst imm8⟩
  · exact ⟨_, exec_of_case (.mviStore imm8 hlt), State.storeByte_advance s 2 _ imm8⟩
  · exact exec_of_case (.mviFault .ind imm8 _ (setByte_ind_of_le (s := s.advance 2) hle imm8))
  · exact exec_of_case (.mviFault .undef imm8 (.byteSpace 0) rfl)

/-! The state each word move and APTR leave (spec/44_moves.md R93, R95, spec/43_pointer_branch.md R88). -/

/-- A word register written after the advance: the others stay but for `pc`, and no other component changes. -/
theorem State.setWordReg_advance (s : State) (n : Nat) (dst : WordReg) (v : Word) :
    let t := (s.advance n).setWordReg dst v
    (∀ r, t.wordReg r = if r = dst then v else if r = .pc then s.pc + BitVec.ofNat 32 n else s.wordReg r) ∧
      t = { s with la := t.la, lb := t.lb, lc := t.lc, ld := t.ld, ptr := t.ptr, pc := t.pc } := by
  refine ⟨fun r => ?_, by cases dst <;> rfl⟩
  rw [State.wordReg_setWordReg, State.wordReg_advance]
  exact if_congr eq_comm rfl rfl

/-- Settles O42: the source is read after the advance. -/
theorem mv32CopiesWordRegister : Obligations.Mv32CopiesWordRegister := by
  intro dst src s
  have hexec : exec (.mv32 (.reg dst) (.reg src)) s = .next _ := exec_of_case (.mv32 dst src)
  rw [State.wordReg_advance] at hexec
  exact ⟨_, hexec, State.setWordReg_advance s 1 dst _⟩

/-- Settles O43: the source is read first, and only then is the destination resolved. -/
theorem mv32FaultsInOrder : Obligations.Mv32FaultsInOrder := by
  refine fun dst src s => ⟨?_, ?_, ?_⟩
  · rintro rfl
    exact exec_of_case (.mv32Fault dst .undef7 (.wordSpace 7) rfl)
  · rintro r rfl rfl
    exact exec_of_case (.mv32Fault .undef0 (.reg r) (.wordSpace 0) rfl)
  · rintro r rfl rfl
    exact exec_of_case (.mv32Fault .undef7 (.reg r) (.wordSpace 7) rfl)

/-- Settles O44: the bytes are MVI32's encoding, and its destination is written or faults after the advance past
them. -/
theorem mvi32WritesImmediate : Obligations.Mvi32WritesImmediate := by
  refine ⟨fun dst b0 b1 b2 b3 rest => ?_, fun imm32 s => ⟨fun dst => ?_, ?_, ?_⟩⟩
  · have hdecode := decode_encode (i := .mvi32 dst (wordOfBytes b0 b1 b2 b3)) rfl rest
    rw [encode, operandBytes, immBytes_wordOfBytes] at hdecode
    rw [ofNat_sum_eq_wordOfBytes]
    exact hdecode
  · exact ⟨_, exec_of_case (.mvi32 dst imm32), State.setWordReg_advance s 5 dst imm32⟩
  · exact exec_of_case (.mvi32Fault .undef0 imm32 (.wordSpace 0) rfl)
  · exact exec_of_case (.mvi32Fault .undef7 imm32 (.wordSpace 7) rfl)

/-- A byte added to a word is the sum of their values modulo 2^32. -/
theorem add_zeroExtend_eq_ofNat_mod (x : Word) (y : Byte) :
    x + y.zeroExtend 32 = BitVec.ofNat 32 ((x.toNat + y.toNat) % 2 ^ 32) := by
  apply BitVec.eq_of_toNat_eq
  simp

theorem decode_aptr (imm8 : Byte) (rest : List Byte) : decode ([0xE1, imm8] ++ rest) = .ok (.aptr imm8, rest) := rfl

theorem exec_aptr (imm8 : Byte) (s : State) :
    exec (.aptr imm8) s = .next { s with ptr := s.ptr + imm8.zeroExtend 32, pc := s.pc + 2 } :=
  exec_of_case (.aptr imm8)

/-- Settles O34: APTR adds to `ptr`, and is truncated where only its first byte lies in the image. -/
theorem aptrAddsUnsignedImmediate : Obligations.AptrAddsUnsignedImmediate := by
  intro imm8 s
  have hexec := exec_aptr imm8 s
  rw [add_zeroExtend_eq_ofNat_mod] at hexec
  refine ⟨hexec, fun h => (step_of_about (bytes := [0xE1, imm8]) (by simp) (decode_aptr imm8) h).trans hexec,
    fun hrun hend hread => ?_⟩
  have hop : resolve (s.mem.read s.pc.toNat) = some .aptr := by rw [hread]; rfl
  have hpast : s.memSize < s.pc.toNat + Form.aptr.length := by rw [Form.length]; omega
  exact hread ▸ step_of_form_truncated hrun hop (by omega) hpast

end Sys2Proof.Machine
